-- ==== Sys2Proof/Word.lean ====
section
/-! DEFINITION. The word and byte types (00_scope.md R8, R9): 32-bit words with arithmetic modulo 2^32 (R10, R119)
and 8-bit bytes. `BitVec`'s own `+`, `&&&`, `|||`, `^^^`, `~~~` are the spec's operators. -/

namespace Sys2Proof

/-- A 32-bit word of the hash state, of a register or of bus data (R8). -/
abbrev Word := BitVec 32

/-- A message or buffer byte (R8). -/
abbrev Byte := BitVec 8

end Sys2Proof
end

