-- ==== Sys2Proof/HostSyntax.lean ====
section
/-! DEFINITION. What the engine's surroundings can do, as syntax: the two kinds of encoded object (30_encoding.md R80),
the lines of a host program (R88, R90), and the platform's events (20_memory.md R66, 70_reset_and_hazards.md R210). -/

namespace Sys2Proof

/-- The two kinds of encoded object the engine decodes (R80), and no others. -/
inductive Encoded where
  /-- A command word, carried by the data of a host write to CMD (R81). -/
  | cmdw (v : Word)
  /-- A bus operation `WE ++ off[5:2]` (R83) with the 32 data bits of a write; a read's data bits are not looked at. -/
  | busop (op : BitVec 5) (data : Word)
  deriving DecidableEq, Repr

/-- The names of the 16 registers (R57, R88). -/
inductive RegName where
  | id | cmd | status | din | bitlenLo | bitlenHi | rsvd6 | rsvd7
  | digest (i : BitVec 3)
  deriving DecidableEq, Repr

/-- The width of a host access as a program asks for it; the engine port knows words only (R52). -/
inductive AccessSize where
  | byte | half | word
  deriving DecidableEq, Repr

/-- One of the eight host variables v0..v7 (R88). -/
abbrev VarName := Fin 8

/-- One line of a host program (R88). A label is the number of the line it stands at (notes/assumptions/26.md). -/
inductive HostLine where
  /-- `WR reg, imm32`: one bus write. -/
  | wr (r : RegName) (imm : Word)
  /-- `WRV reg, vK`: one bus write of a variable. -/
  | wrv (r : RegName) (k : VarName)
  /-- `RD vK, reg`: one bus read into a variable. -/
  | rd (k : VarName) (r : RegName)
  /-- `LI vK, imm32`. -/
  | li (k : VarName) (imm : Word)
  /-- `ADDI vK, vJ, imm32`. -/
  | addi (k j : VarName) (imm : Word)
  /-- `ANDI vK, vJ, imm32`. -/
  | andi (k j : VarName) (imm : Word)
  /-- `BNE vK, imm32, label`. -/
  | bne (k : VarName) (imm : Word) (target : Nat)
  /-- `BEQ vK, imm32, label`. -/
  | beq (k : VarName) (imm : Word) (target : Nat)
  /-- `HALT`. -/
  | halt
  /-- An operation in its encoded form (R90): a command mnemonic by its word, or a bus operation. -/
  | send (e : Encoded)
  /-- A read of `size` at host address `addr` into a variable (R51, R52). -/
  | load (k : VarName) (addr : Nat) (size : AccessSize)
  /-- A write of `v` with `size` at host address `addr` (R51, R52). -/
  | store (addr : Nat) (size : AccessSize) (v : Word)
  deriving DecidableEq, Repr

/-- What the platform does at one step, ahead of the host and the engine. -/
inductive PlatformEvent where
  /-- Nothing: the host or the engine moves. -/
  | pass
  /-- `rst_n` takes the level `level` (R67, R210). -/
  | rst (level : Bool)
  /-- Another bus master accesses the window (R66). -/
  | access (e : Encoded)
  deriving DecidableEq, Repr

end Sys2Proof
end

