-- ==== Sys2Proof/Syntax.lean ====
section
/-! DEFINITION. The instructions: one constructor per row of spec/opcode_table.json, in the table's order. The first
four rows are command words (CMDW, 30_encoding.md R82), the others bus operations (BUSOP, R83). Operand fields have
exactly the width the encoding gives them. -/

namespace Sys2Proof

/-- One operation of the host on the engine (30_encoding.md R80). -/
inductive Instr where
  /-- NOP, CMDW 0x00000000 (R141). -/
  | nop
  /-- INIT, CMDW 0x00000001 (R142). -/
  | init
  /-- ABSORB.n with `n = nb + 1` bytes, CMDW 0x2 with NB in bits 5:4 (R143). -/
  | absorb (nb : BitVec 2)
  /-- FINAL, CMDW 0x00000003 (R145). -/
  | final
  /-- RD ID, BUSOP 0x00 (R161). -/
  | rdId
  /-- RD CMD, BUSOP 0x01 (R163). -/
  | rdCmd
  /-- RD STATUS, BUSOP 0x02 (R165). -/
  | rdStatus
  /-- RD DIN, BUSOP 0x03 (R167). -/
  | rdDin
  /-- RD BITLEN_LO, BUSOP 0x04 (R169). -/
  | rdBitlenLo
  /-- RD BITLEN_HI, BUSOP 0x05 (R170). -/
  | rdBitlenHi
  /-- RD RSVD6 (`low = 0`) or RD RSVD7 (`low = 1`), BUSOP 0x06 or 0x07 (R171). -/
  | rdRsvd (low : BitVec 1)
  /-- RD DIGESTi, BUSOP 0x08 + i (R172). -/
  | rdDigest (i : BitVec 3)
  /-- WR ID, BUSOP 0x10 (R162). -/
  | wrId (v : Word)
  /-- WR CMD, BUSOP 0x11 (R164). -/
  | wrCmd (v : Word)
  /-- WR STATUS, BUSOP 0x12 (R166). -/
  | wrStatus (v : Word)
  /-- WR DIN, BUSOP 0x13 (R168). -/
  | wrDin (v : Word)
  /-- WR BITLEN_LO (`hi = 0`) or WR BITLEN_HI (`hi = 1`), BUSOP 0x14 or 0x15 (R162). -/
  | wrBitlen (hi : BitVec 1) (v : Word)
  /-- WR RSVD6 (`low = 0`) or WR RSVD7 (`low = 1`), BUSOP 0x16 or 0x17 (R171). -/
  | wrRsvd (low : BitVec 1) (v : Word)
  /-- WR DIGESTi, BUSOP 0x18 + i (R162). -/
  | wrDigest (i : BitVec 3) (v : Word)
  deriving DecidableEq, Repr

end Sys2Proof
end

