-- ==== Sys2Proof/Config.lean ====
section
/-! DEFINITION. The two OPEN parameters of the spec (00_scope.md R8, 92_eei_decisions.md "Open parameters"): the delay
of a command and the base address of the register window. Neither has a value that a proof can see. -/

namespace Sys2Proof

/-- `LATENCY` of R148 and R220, a FREE VALUE (notes/assumptions/2.md): how many steps of the other agents pass
between the acceptance of command number `k` (counted from 0) and its completion, where the input list
`State.latencies` names none. A natural number, so every command completes (R221); nothing else is known of it. -/
opaque Config.latency : Nat → Nat

/-- The platform's choice of the register window: `BASE / 64` (R51). A free value (notes/assumptions/12.md). -/
opaque Config.windowNumber : Nat

/-- `BASE`, the host address of the window's first byte: a multiple of 64 fixed by the platform (R51). -/
def Config.base : Nat := 64 * Config.windowNumber

/-- The register window is 64 bytes long (R50). -/
def Config.windowBytes : Nat := 64

end Sys2Proof
end

