-- ==== Sys2Proof/WellFormed.lean ====
section
/-! DEFINITION. Which syntax is well formed. Every operand field of an instruction has the width of its encoding, so
every term of `Instr` is an instruction (30_encoding.md R83, R84: no value of a field is illegal); the checks that can
fail are those on encoded objects (a read carries no data) and on host lines (a label stands in the program, a raw
access is an aligned word inside the window). -/

namespace Sys2Proof

/-- Every term of `Instr` is well formed: NB, IDX and the data word take every value of their widths (R83, R84). -/
def Instr.wellFormed : Instr → Bool
  | .nop => true
  | .init => true
  | .absorb _ => true
  | .final => true
  | .rdId => true
  | .rdCmd => true
  | .rdStatus => true
  | .rdDin => true
  | .rdBitlenLo => true
  | .rdBitlenHi => true
  | .rdRsvd _ => true
  | .rdDigest _ => true
  | .wrId _ => true
  | .wrCmd _ => true
  | .wrStatus _ => true
  | .wrDin _ => true
  | .wrBitlen _ _ => true
  | .wrRsvd _ _ => true
  | .wrDigest _ _ => true

/-- A bus read carries no data bits (R80: "plus 32 data bits on a write"); they are written 0. -/
def Encoded.wellFormed : Encoded → Bool
  | .cmdw _ => true
  | .busop op data => op.getLsbD 4 || data == 0

/-- A raw host access the engine port can express: a word, at a multiple of 4, inside the window (R51, R52). -/
def rawAccessWellFormed (addr : Nat) (size : AccessSize) : Bool :=
  size == .word && addr % 4 == 0 && decide (Config.base ≤ addr ∧ addr < Config.base + Config.windowBytes)

/-- A line of a program of `n` lines whose label, if it has one, stands in the program (R88), and whose raw access,
if it is one, the port can express. -/
def HostLine.wellFormed (n : Nat) : HostLine → Bool
  | .wr _ _ => true
  | .wrv _ _ => true
  | .rd _ _ => true
  | .li _ _ => true
  | .addi _ _ _ => true
  | .andi _ _ _ => true
  | .bne _ _ target => target < n
  | .beq _ _ target => target < n
  | .halt => true
  | .send e => e.wellFormed
  | .load _ addr size => rawAccessWellFormed addr size
  | .store addr size _ => rawAccessWellFormed addr size

/-- A host program all of whose lines are well formed. -/
def programWellFormed (prog : List HostLine) : Bool :=
  prog.all (HostLine.wellFormed prog.length)

end Sys2Proof
end

