-- ==== Sys2Proof/Decode.lean ====
section
/-! DEFINITION. Decoding and encoding (30_encoding.md R80 to R87): command words, bus operations, the register map's
word indices, and the opcode table's numbering of an instruction's bits. -/

namespace Sys2Proof

/-- What the command logic reads from a CMDW that is not reserved (R82, R84). -/
inductive Command where
  | nop
  | init
  | absorb (nb : BitVec 2)
  | final
  deriving DecidableEq, Repr

/-- Why an encoded object is no instruction. -/
inductive DecodeReject where
  /-- A reserved command word (R86); writing it to CMD sets ERR_CMD. Safe: the write keeps that effect. -/
  | reservedCommand (v : Word)
  deriving DecidableEq, Repr

/-- `decode(v)` of R84; `none` is RESERVED. -/
def decodeCmdw (v : Word) : Option Command :=
  if v = 0x00000000#32 then some .nop
  else if v = 0x00000001#32 then some .init
  else if v.extractLsb' 0 4 = 0x2#4 ∧ v.extractLsb' 6 26 = 0#26 then some (.absorb (v.extractLsb' 4 2))
  else if v = 0x00000003#32 then some .final
  else none

/-- The row of the opcode table that a command word's reading is. -/
def Command.instr : Command → Instr
  | .nop => .nop
  | .init => .init
  | .absorb nb => .absorb nb
  | .final => .final

/-- A read of word index `idx` (R83, R174). -/
def decodeRead (idx : BitVec 4) : Instr :=
  match idx with
  | 0x0#4 => .rdId
  | 0x1#4 => .rdCmd
  | 0x2#4 => .rdStatus
  | 0x3#4 => .rdDin
  | 0x4#4 => .rdBitlenLo
  | 0x5#4 => .rdBitlenHi
  | 0x6#4 => .rdRsvd 0
  | 0x7#4 => .rdRsvd 1
  | i => .rdDigest (i.extractLsb' 0 3)

/-- A write of `v` to word index `idx` (R83, R174). -/
def decodeWrite (idx : BitVec 4) (v : Word) : Instr :=
  match idx with
  | 0x0#4 => .wrId v
  | 0x1#4 => .wrCmd v
  | 0x2#4 => .wrStatus v
  | 0x3#4 => .wrDin v
  | 0x4#4 => .wrBitlen 0 v
  | 0x5#4 => .wrBitlen 1 v
  | 0x6#4 => .wrRsvd 0 v
  | 0x7#4 => .wrRsvd 1 v
  | i => .wrDigest (i.extractLsb' 0 3) v

/-- The bus operation `op` with write data `data` (R83): bit 4 is WE, bits 3:0 the word index. All 32 values mean
something. -/
def decodeBusop (op : BitVec 5) (data : Word) : Instr :=
  if op.getLsbD 4 then decodeWrite (op.extractLsb' 0 4) data else decodeRead (op.extractLsb' 0 4)

/-- Decoding of either kind of encoded object (R80). -/
def decode : Encoded → Except DecodeReject Instr
  | .cmdw v =>
    match decodeCmdw v with
    | some c => .ok c.instr
    | none => .error (.reservedCommand v)
  | .busop op data => .ok (decodeBusop op data)

/-- The command word of a command (R82): OP in bits 3:0, NB in bits 5:4, zeros above. -/
def encodeCommand : Command → Word
  | .nop => 0x00000000#32
  | .init => 0x00000001#32
  | .absorb nb => 0#26 ++ nb ++ 0x2#4
  | .final => 0x00000003#32

/-- A bus read of word index `idx` (R83). -/
def encodeRead (idx : BitVec 4) : Encoded := .busop (0#1 ++ idx) 0

/-- A bus write of `v` to word index `idx` (R83). -/
def encodeWrite (idx : BitVec 4) (v : Word) : Encoded := .busop (1#1 ++ idx) v

/-- The encoding of every instruction (R82, R83, R174). -/
def encode : Instr → Encoded
  | .nop => .cmdw (encodeCommand .nop)
  | .init => .cmdw (encodeCommand .init)
  | .absorb nb => .cmdw (encodeCommand (.absorb nb))
  | .final => .cmdw (encodeCommand .final)
  | .rdId => encodeRead 0x0
  | .rdCmd => encodeRead 0x1
  | .rdStatus => encodeRead 0x2
  | .rdDin => encodeRead 0x3
  | .rdBitlenLo => encodeRead 0x4
  | .rdBitlenHi => encodeRead 0x5
  | .rdRsvd low => encodeRead (0b011#3 ++ low)
  | .rdDigest i => encodeRead (0b1#1 ++ i)
  | .wrId v => encodeWrite 0x0 v
  | .wrCmd v => encodeWrite 0x1 v
  | .wrStatus v => encodeWrite 0x2 v
  | .wrDin v => encodeWrite 0x3 v
  | .wrBitlen hi v => encodeWrite (0b010#3 ++ hi) v
  | .wrRsvd low v => encodeWrite (0b011#3 ++ low) v
  | .wrDigest i v => encodeWrite (0b1#1 ++ i) v

/-- The word index `off[5:2]` of a register (R57). -/
def RegName.index : RegName → BitVec 4
  | .id => 0x0
  | .cmd => 0x1
  | .status => 0x2
  | .din => 0x3
  | .bitlenLo => 0x4
  | .bitlenHi => 0x5
  | .rsvd6 => 0x6
  | .rsvd7 => 0x7
  | .digest i => 0b1#1 ++ i

/-- The byte offset of a register in the window (R57). -/
def RegName.off (r : RegName) : Nat := 4 * r.index.toNat

/-- The encoded object whose bits are `w`, numbered as the opcode table numbers them (notes/assumptions/6.md): a row
of 32 bits is a CMDW; a BUSOP has its 5 bits in bits 4:0 of one byte whose other bits are 0, and a write's data word
follows from bit 8 on. -/
def encodedOfBits (nbits w : Nat) : Option Encoded :=
  if nbits = 32 then
    if w < 2 ^ 32 then some (.cmdw (BitVec.ofNat 32 w)) else none
  else if w % 256 < 32 ∧ w < 2 ^ 40 then
    some (.busop (BitVec.ofNat 5 w) (BitVec.ofNat 32 (w / 256)))
  else none

/-- What the decoder reads from the bits `w` of an opcode-table row of `nbits` bits. -/
def decodeTableWord (nbits w : Nat) : Option Instr :=
  match encodedOfBits nbits w with
  | none => none
  | some e =>
    match decode e with
    | .ok i => some i
    | .error _ => none

end Sys2Proof
end

