-- ==== Sys2Proof/Machine/State.lean ====
section
/-! DEFINITION. The machine's state (10_state.md R20: every element the spec gives the engine), the ports it drives
and is driven by (20_memory.md R67), the host agent of 30_encoding.md R88, and the model's own scheduling fields. -/

namespace Sys2Proof.Machine

/-- The hash state (R13 "HashState", R21 to R24). -/
structure HashState where
  /-- H[0..7], the working-state words (R21). -/
  h : Vector Word 8
  /-- BUF[0..63], the pending block (R22). -/
  buf : Vector Byte 64
  /-- CNT, how many bytes of BUF are valid, 0..63 (R23). -/
  cnt : BitVec 6
  /-- BITLEN, message bits absorbed since INIT (R24). -/
  bitlen : BitVec 64
  deriving DecidableEq, Repr

/-- PHASE, the life-cycle position (R25); the encoding 11 does not exist (93 I16). -/
inductive Phase where
  | idle | active | done
  deriving DecidableEq, Repr

/-- The operations a pending command can have (R26); NOP is never pending (R141). -/
inductive Op where
  | init | absorb | final
  deriving DecidableEq, Repr

/-- An accepted command `(op, n, data)` (R26): `n` is the byte count of an ABSORB (1..4) and 1 otherwise, `data` the
copy of DIN taken at issue. -/
structure Pending where
  op : Op
  n : Nat
  data : Word
  deriving DecidableEq, Repr

/-- The four sticky error bits ERR_SEQ, ERR_CMD, ERR_BUSY, ERR_LEN (R28). -/
structure Errors where
  seq : Bool
  cmd : Bool
  busy : Bool
  len : Bool
  deriving DecidableEq, Repr

/-- The four errors (R182). -/
inductive ErrorKind where
  | seq | cmd | busy | len
  deriving DecidableEq, Repr

/-- The host agent of R88: its variables v0..v7, its program and the line it is at. -/
structure HostAgent where
  vars : Vector Word 8
  prog : List HostLine
  pos : Nat
  deriving DecidableEq, Repr

/-- Everything that changes as the machine runs. -/
structure State where
  /-- H, BUF, CNT and BITLEN. -/
  hash : HashState
  /-- PHASE (R25). -/
  phase : Phase
  /-- PEND (R26); BUSY is whether it holds a command. -/
  pend : Option Pending
  /-- DIN (R27). -/
  din : Word
  /-- The sticky error bits (R28). -/
  err : Errors
  /-- The level of the reset input `rst_n`: `true` is high, not in reset (R67, R210). -/
  rstN : Bool
  /-- The output port `rdata`: the data of the latest read (R67; notes/assumptions/8.md). -/
  rdata : Word
  /-- The MODEL's: steps of the other agents left before the pending command completes (notes/assumptions/2.md). -/
  delay : Nat
  /-- The MODEL's: how many commands have been accepted, the index of the next free latency. -/
  issues : Nat
  /-- The MODEL's: delays in store for the next accepted commands, before `Config.latency` is asked. -/
  latencies : List Nat
  /-- The MODEL's: what the platform does at the next steps (notes/assumptions/3.md). -/
  platform : List PlatformEvent
  /-- The host agent (R60, R88). -/
  host : HostAgent
  deriving DecidableEq, Repr

/-- Why the machine can stop. No rule of the spec stops the engine (60_exceptions.md R181, R189). -/
inductive Fault where
  /-- Raised by the host agent's step, on a taken BNE or BEQ whose label its program does not have
  (notes/assumptions/16.md). Safe: the machine stops where the notation of R88 gives no next line. -/
  | noSuchLabel (target : Nat)
  deriving DecidableEq, Repr

/-- What the model declines to run. -/
inductive Refusal where
  /-- Raised by `exec` for an instruction without a meaning; no arm answers it. Safe. -/
  | notModelled (mnemonic : String)
  /-- Raised by a raw host access whose address is outside the window (R51, 93 I2 "refuse"). Safe. -/
  | outsideWindow (addr : Nat)
  /-- Raised by a raw host access to the window that is no aligned 4-byte word (R52, 93 I1 "refuse"). Safe. -/
  | notAlignedWord (addr : Nat) (size : AccessSize)
  deriving DecidableEq, Repr

/-- An outcome of the machine. -/
abbrev Result := Host.Outcome State Fault Refusal

/-- The empty hash state: every element 0 (R20, R210). -/
def HashState.zero : HashState :=
  { h := Vector.replicate 8 0#32, buf := Vector.replicate 64 0#8, cnt := 0#6, bitlen := 0#64 }

/-- No error recorded. -/
def Errors.none : Errors := { seq := false, cmd := false, busy := false, len := false }

/-- A host agent with no program; v0..v7 are 0 (95_test_vectors.md L3; notes/assumptions/4.md). -/
def HostAgent.empty : HostAgent := { vars := Vector.replicate 8 0#32, prog := [], pos := 0 }

/-- The machine right after the reset event, `rst_n` released (R20, R210). -/
def State.reset : State :=
  { hash := HashState.zero, phase := .idle, pend := Option.none, din := 0#32, err := Errors.none, rstN := true,
    rdata := 0#32, delay := 0, issues := 0, latencies := [], platform := [], host := HostAgent.empty }

/-- BUSY: 1 exactly when PEND holds a command (R26). -/
def State.busy (s : State) : Bool := s.pend.isSome

end Sys2Proof.Machine
end

