-- ==== Sys2Proof/Machine/Operands.lean ====
section
/-! DEFINITION. The operand forms: the byte lanes of ABSORB's data word (30_encoding.md R85), the byte count of its NB
field (R84), and the value each register of the window reads (10_state.md R34 to R40). -/

namespace Sys2Proof.Machine

/-- The value of ID (R34): the ASCII bytes of S256. -/
def idValue : Word := 0x53323536#32

/-- `n = zext_3(NB) + 1` (R84): 1 to 4 bytes. -/
def byteCount (nb : BitVec 2) : Nat := nb.toNat + 1

/-- The four byte lanes of an ABSORB data word, in the order they are absorbed (R85). -/
def lanes (d : Word) : List Byte :=
  [d.extractLsb' 24 8, d.extractLsb' 16 8, d.extractLsb' 8 8, d.extractLsb' 0 8]

/-- The bytes ABSORB.n takes from `d` (R85): the first `n` lanes; the others are ignored. -/
def absorbedBytes (n : Nat) (d : Word) : List Byte := (lanes d).take n

/-- What BITLEN_LO reads (R38). -/
def bitlenLo (s : State) : Word := s.hash.bitlen.extractLsb' 0 32

/-- What BITLEN_HI reads (R38). -/
def bitlenHi (s : State) : Word := s.hash.bitlen.extractLsb' 32 32

/-- What DIGESTi reads (R40): `H[i]` in phase DONE, else 0. -/
def digestWord (i : BitVec 3) (s : State) : Word :=
  if s.phase = .done then s.hash.h[i.toNat]'i.isLt else 0#32

/-- Digest byte `D[4i + j] = H[i][31 - 8j : 24 - 8j]` (R56). -/
def wordByte (w : Word) (j : Nat) : Byte := w.extractLsb' (24 - 8 * j) 8

/-- The 32 digest bytes of eight words, each most significant byte first (R56). -/
def digestBytes (h : Vector Word 8) : List Byte :=
  h.toList.flatMap fun w => (List.range 4).map (wordByte w)

end Sys2Proof.Machine
end

