-- ==== Sys2Proof/Machine/Ops.lean ====
section
/-! DEFINITION. The shared operations over State: raising an error, which is all that an exception is on this
hardware (60_exceptions.md R181, R189, R190: no trap is taken and none is returned from), the reset line
(70_reset_and_hazards.md R210, R211), latching a command, the two shapes of a host access, and byte order. -/

namespace Sys2Proof.Machine

/-- `BE32(b0, b1, b2, b3)` (R11): `b0` is the most significant byte. -/
def be32 (b0 b1 b2 b3 : Byte) : Word := b0 ++ b1 ++ b2 ++ b3

/-- Byte `k` of `BE64(v)` (R11), the most significant byte first, for `k` in 0..7. -/
def be64Byte (v : BitVec 64) (k : Nat) : Byte := v.extractLsb' (56 - 8 * k) 8

/-- `BE64(v)` (R11): the 8 bytes of `v`, most significant first. -/
def be64 (v : BitVec 64) : List Byte := (List.range 8).map (be64Byte v)

/-- The error bits with the bit `e` set (R28). -/
def setError (e : ErrorKind) (b : Errors) : Errors :=
  match e with
  | .seq => { b with seq := true }
  | .cmd => { b with cmd := true }
  | .busy => { b with busy := true }
  | .len => { b with len := true }

/-- `raise e` (R11, R181): the sticky bit becomes 1, the command word is discarded and nothing else changes. There
is no trap, no saved state and no handler (R189). -/
def raise (e : ErrorKind) (s : State) : State := { s with err := setError e s.err }

/-- The engine's elements at their reset values (R20, R210). The host agent and the schedule are not the engine's
and stay (notes/assumptions/4.md). -/
def resetEngine (s : State) : State :=
  { s with hash := HashState.zero, phase := .idle, pend := none, din := 0#32, err := Errors.none, rdata := 0#32, delay := 0 }

/-- `rst_n` takes the level `level` as one step (R210): going or staying low holds every element at its reset value,
so a pending command is lost (R211); going high leaves the engine in that state; staying high changes nothing. -/
def setResetLine (level : Bool) (s : State) : State :=
  if level && s.rstN then s else { resetEngine s with rstN := level }

/-- The delay of the next accepted command: the one in store, else the free `LATENCY` (R148, R220). -/
def nextLatency (s : State) : Nat :=
  match s.latencies with
  | d :: _ => d
  | [] => Config.latency s.issues

/-- `PEND <- (op, n, DIN)` (R140): the command is accepted and BUSY reads 1 from now on; its delay starts. -/
def latch (op : Op) (n : Nat) (s : State) : State :=
  { s with
    pend := some { op := op, n := n, data := s.din }
    delay := nextLatency s
    issues := s.issues + 1
    latencies := s.latencies.tail }

/-- A host read whose register holds `v` (R54, R160): it changes no state, `rdata` gives the value. While `rst_n` is
low every read returns 0 (R211). -/
def readAccess (v : Word) (s : State) : Result :=
  .next { s with rdata := if s.rstN then v else 0#32 }

/-- A host write with the effect `f` (R160): one atomic step. While `rst_n` is low it has no effect (R211). -/
def writeAccess (f : State → State) (s : State) : Result :=
  .next (if s.rstN then f s else s)

/-- Continue with `f` after a next state; a fault or a refusal stands. -/
def onNext (o : Result) (f : State → State) : Result :=
  match o with
  | .next s => .next (f s)
  | .fault r => .fault r
  | .refused r => .refused r

end Sys2Proof.Machine
end

