-- ==== Sys2Proof/Machine/Sha256.lean ====
section
/-! DEFINITION. The SHA-256 core of 40_sha256_core.md: the functions on words (R101 to R108), the constants (R109,
R110), the compression function (R111 to R116), and the hash of a whole message (R117, R118). These run inside the
completion of ABSORB and FINAL; no host access calls one. -/

namespace Sys2Proof.Machine

/-- `ROTR^n(x)` (R101): bit `i` of the result is bit `(i + n) mod 32` of `x`. -/
def rotr (n : Nat) (x : Word) : Word := (x >>> n) ||| (x <<< (32 - n))

/-- `SHR^n(x)` (R102), zeros shifted in. -/
def shr (n : Nat) (x : Word) : Word := x >>> n

/-- `Ch(x, y, z)` (R103). -/
def ch (x y z : Word) : Word := (x &&& y) ^^^ (~~~x &&& z)

/-- `Maj(x, y, z)` (R104). -/
def maj (x y z : Word) : Word := (x &&& y) ^^^ (x &&& z) ^^^ (y &&& z)

/-- `Σ0(x)` (R105). -/
def bsig0 (x : Word) : Word := rotr 2 x ^^^ rotr 13 x ^^^ rotr 22 x

/-- `Σ1(x)` (R106). -/
def bsig1 (x : Word) : Word := rotr 6 x ^^^ rotr 11 x ^^^ rotr 25 x

/-- `σ0(x)` (R107). -/
def ssig0 (x : Word) : Word := rotr 7 x ^^^ rotr 18 x ^^^ shr 3 x

/-- `σ1(x)` (R108). -/
def ssig1 (x : Word) : Word := rotr 17 x ^^^ rotr 19 x ^^^ shr 10 x

/-- The initial hash value IV[0..7] (R109). -/
def iv : Vector Word 8 :=
  #v[0x6A09E667#32, 0xBB67AE85#32, 0x3C6EF372#32, 0xA54FF53A#32, 0x510E527F#32, 0x9B05688C#32, 0x1F83D9AB#32, 0x5BE0CD19#32]

/-- Round constants K[0..31] (R110). -/
def roundConstantsLow : List Word :=
  [0x428A2F98#32, 0x71374491#32, 0xB5C0FBCF#32, 0xE9B5DBA5#32, 0x3956C25B#32, 0x59F111F1#32, 0x923F82A4#32, 0xAB1C5ED5#32] ++
  [0xD807AA98#32, 0x12835B01#32, 0x243185BE#32, 0x550C7DC3#32, 0x72BE5D74#32, 0x80DEB1FE#32, 0x9BDC06A7#32, 0xC19BF174#32] ++
  [0xE49B69C1#32, 0xEFBE4786#32, 0x0FC19DC6#32, 0x240CA1CC#32, 0x2DE92C6F#32, 0x4A7484AA#32, 0x5CB0A9DC#32, 0x76F988DA#32] ++
  [0x983E5152#32, 0xA831C66D#32, 0xB00327C8#32, 0xBF597FC7#32, 0xC6E00BF3#32, 0xD5A79147#32, 0x06CA6351#32, 0x14292967#32]

/-- Round constants K[32..63] (R110). -/
def roundConstantsHigh : List Word :=
  [0x27B70A85#32, 0x2E1B2138#32, 0x4D2C6DFC#32, 0x53380D13#32, 0x650A7354#32, 0x766A0ABB#32, 0x81C2C92E#32, 0x92722C85#32] ++
  [0xA2BFE8A1#32, 0xA81A664B#32, 0xC24B8B70#32, 0xC76C51A3#32, 0xD192E819#32, 0xD6990624#32, 0xF40E3585#32, 0x106AA070#32] ++
  [0x19A4C116#32, 0x1E376C08#32, 0x2748774C#32, 0x34B0BCB5#32, 0x391C0CB3#32, 0x4ED8AA4A#32, 0x5B9CCA4F#32, 0x682E6FF3#32] ++
  [0x748F82EE#32, 0x78A5636F#32, 0x84C87814#32, 0x8CC70208#32, 0x90BEFFFA#32, 0xA4506CEB#32, 0xBEF9A3F7#32, 0xC67178F2#32]

/-- The 64 round constants K[0..63] (R110). -/
def roundConstants : List Word := roundConstantsLow ++ roundConstantsHigh

/-- A block of 64 zero bytes: the emptied buffer (R144). -/
def zeroBlock : Vector Byte 64 := Vector.replicate 64 0#8

/-- Message word `W[t] = BE32(B[4t], B[4t+1], B[4t+2], B[4t+3])`, `t` in 0..15 (R111). -/
def messageWord (b : Vector Byte 64) (t : Fin 16) : Word :=
  be32 b[4 * t.val] b[4 * t.val + 1] b[4 * t.val + 2] b[4 * t.val + 3]

/-- `W[0..15]` (R111). -/
def messageWords (b : Vector Byte 64) : List Word := (List.finRange 16).map (messageWord b)

/-- The next schedule word after `w = W[0..t-1]` (R112): `σ1(W[t-2]) + W[t-7] + σ0(W[t-15]) + W[t-16]`. -/
def nextScheduleWord (w : List Word) : Word :=
  let t := w.length
  ssig1 (w.getD (t - 2) 0#32) + w.getD (t - 7) 0#32 + ssig0 (w.getD (t - 15) 0#32) + w.getD (t - 16) 0#32

/-- `k` more schedule words (R112). -/
def expandSchedule : Nat → List Word → List Word
  | 0, w => w
  | k + 1, w => expandSchedule k (w ++ [nextScheduleWord w])

/-- The message schedule `W[0..63]` of a block (R111, R112). -/
def schedule (b : Vector Byte 64) : List Word := expandSchedule 48 (messageWords b)

/-- The working variables a..h of a compression (R31, R113). -/
structure WorkingVars where
  a : Word
  b : Word
  c : Word
  d : Word
  e : Word
  f : Word
  g : Word
  h : Word
  deriving DecidableEq, Repr

/-- `a <- H[0]; ...; h <- H[7]` (R113). -/
def startVars (h : Vector Word 8) : WorkingVars :=
  { a := h[0], b := h[1], c := h[2], d := h[3], e := h[4], f := h[5], g := h[6], h := h[7] }

/-- `T1` of a round with constant `k` and schedule word `w` (R114). -/
def roundT1 (v : WorkingVars) (k w : Word) : Word := v.h + bsig1 v.e + ch v.e v.f v.g + k + w

/-- `T2` of a round (R114). -/
def roundT2 (v : WorkingVars) : Word := bsig0 v.a + maj v.a v.b v.c

/-- One round with `kw = (K[t], W[t])` (R114); the eight assignments use the values from before the round. -/
def compressionRound (v : WorkingVars) (kw : Word × Word) : WorkingVars :=
  let t1 := roundT1 v kw.1 kw.2
  { a := t1 + roundT2 v, b := v.a, c := v.b, d := v.c, e := v.d + t1, f := v.e, g := v.f, h := v.g }

/-- Rounds 0..63 in order over the schedule `w` (R116). -/
def rounds (w : List Word) (v : WorkingVars) : WorkingVars := (roundConstants.zip w).foldl compressionRound v

/-- The feed-forward `H'[i] <- H[i] + v_i` (R115). -/
def feedForward (h : Vector Word 8) (v : WorkingVars) : Vector Word 8 :=
  #v[h[0] + v.a, h[1] + v.b, h[2] + v.c, h[3] + v.d, h[4] + v.e, h[5] + v.f, h[6] + v.g, h[7] + v.h]

/-- `Compress(H, B)` (R116). -/
def compress (h : Vector Word 8) (b : Vector Byte 64) : Vector Word 8 :=
  feedForward h (rounds (schedule b) (startVars h))

/-- The zero bytes of the padding of an `len`-byte message: `(55 - L) mod 64` (R117). -/
def padZeros (len : Nat) : Nat := (119 - len % 64) % 64

/-- The padded message `M ++ [0x80] ++ Z ++ BE64(8L)` (R117). -/
def padMessage (m : List Byte) : List Byte :=
  m ++ [0x80#8] ++ List.replicate (padZeros m.length) 0#8 ++ be64 (BitVec.ofNat 64 (8 * m.length))

/-- The 64 bytes of `m` from byte `64 k` on as a block (R118). -/
def blockAt (m : List Byte) (k : Nat) : Vector Byte 64 := Vector.ofFn fun j => m.getD (64 * k + j.val) 0#8

/-- `H <- Compress(H, P_k)` over the first `n` blocks of `m`, from `h` (R118). -/
def compressBlocks (m : List Byte) : Nat → Vector Word 8 → Vector Word 8
  | 0, h => h
  | n + 1, h => compress (compressBlocks m n h) (blockAt m n)

/-- `SHA256(M)` as eight words (R118): the padded message has `floor((L + 8) / 64) + 1` blocks (R117). -/
def sha256 (m : List Byte) : Vector Word 8 :=
  compressBlocks (padMessage m) ((m.length + 8) / 64 + 1) iv

end Sys2Proof.Machine
end

