-- ==== Sys2Proof/Machine/Commands.lean ====
section
/-! DEFINITION. The commands of 41_commands.md: issue (R140), the effects that INIT, ABSORB and FINAL have at their
completion (R142 to R146), the completion step (R148), and the meanings of the four command rows: each is the CMD
write of its word (R88), so it is checked and latched at issue and takes effect when the engine completes it. -/

namespace Sys2Proof.Machine

/-- The largest value of BITLEN, 2^64 - 1 (R140). -/
def bitlenMax : Nat := 2 ^ 64 - 1

/-- Whether ABSORB of `n` bytes would take BITLEN past 2^64 - 1, compared as exact integers (R140). -/
def tooLong (n : Nat) (s : State) : Bool := decide (s.hash.bitlen.toNat + 8 * n > bitlenMax)

/-- The issue checks of R140 for a decoded command, in their order, then the latch. -/
def issueCommand (c : Command) (s : State) : State :=
  if s.busy then raise .busy s
  else
    match c with
    | .nop => s
    | .init => latch .init 1 s
    | .absorb nb =>
      if s.phase ≠ .active then raise .seq s
      else if tooLong (byteCount nb) s then raise .len s
      else latch .absorb (byteCount nb) s
    | .final => if s.phase ≠ .active then raise .seq s else latch .final 1 s

/-- `issue(v)` (R140): while BUSY the word is not even decoded (R187). -/
def issue (v : Word) (s : State) : State :=
  if s.busy then raise .busy s
  else
    match decodeCmdw v with
    | none => raise .cmd s
    | some c => issueCommand c s

/-- INIT's effect on the hash state (R142). -/
def initHash : HashState := { h := iv, buf := zeroBlock, cnt := 0#6, bitlen := 0#64 }

/-- INIT at completion (R142). -/
def completeInit (s : State) : State := { s with hash := initHash, phase := .active }

/-- `AbsorbByte(b)` (R144). The count is computed in 7 bits; at 64 the block is compressed and the buffer emptied. -/
def absorbByte (x : HashState) (b : Byte) : HashState :=
  let buf := x.buf.set x.cnt.toNat b x.cnt.isLt
  let cnt := x.cnt.setWidth 7 + 1#7
  let bitlen := x.bitlen + 8#64
  if cnt = 64#7 then { h := compress x.h buf, buf := zeroBlock, cnt := 0#6, bitlen := bitlen }
  else { h := x.h, buf := buf, cnt := cnt.setWidth 6, bitlen := bitlen }

/-- AbsorbByte on each byte in order (R143, R150). -/
def absorbBytes (x : HashState) (bs : List Byte) : HashState := bs.foldl absorbByte x

/-- ABSORB.n at completion, with the data word latched at issue (R143). -/
def completeAbsorb (n : Nat) (d : Word) (s : State) : State :=
  { s with hash := absorbBytes s.hash (absorbedBytes n d) }

/-- `for j in lo..hi-1: BUF[j] <- 0` (R146). -/
def zeroFrom (b : Vector Byte 64) (lo hi : Nat) : Vector Byte 64 :=
  Vector.ofFn fun j => if lo ≤ j.val ∧ j.val < hi then 0#8 else b[j.val]

/-- `BUF[56..63] <- BE64(L)` (R146). -/
def putLength (b : Vector Byte 64) (len : BitVec 64) : Vector Byte 64 :=
  Vector.ofFn fun j => if 56 ≤ j.val then be64Byte len (j.val - 56) else b[j.val]

/-- `Pad()` (R146): the 0x80 byte, a compression of a full block where the length does not fit, the length and the
last compression. BITLEN is not changed. -/
def pad (x : HashState) : HashState :=
  let marked := x.buf.set x.cnt.toNat 0x80#8 x.cnt.isLt
  let i := x.cnt.toNat + 1
  if i > 56 then
    let h := compress x.h (zeroFrom marked i 64)
    { h := compress h (putLength (zeroFrom zeroBlock 0 56) x.bitlen), buf := zeroBlock, cnt := 0#6, bitlen := x.bitlen }
  else
    { h := compress x.h (putLength (zeroFrom marked i 56) x.bitlen), buf := zeroBlock, cnt := 0#6, bitlen := x.bitlen }

/-- FINAL at completion (R145). -/
def completeFinal (s : State) : State := { s with hash := pad s.hash, phase := .done }

/-- The completion step (R148): the pending command's effect on the state as it is now, and PEND empty, at once. -/
def complete (s : State) : State :=
  match s.pend with
  | none => s
  | some p =>
    match p.op with
    | .init => { completeInit s with pend := none }
    | .absorb => { completeAbsorb p.n p.data s with pend := none }
    | .final => { completeFinal s with pend := none }

/-- NOP (R141): the CMD write of 0x00000000; no effect, never pending, ERR_BUSY while BUSY. -/
def execNop (s : State) : Result := writeAccess (issueCommand .nop) s

/-- INIT (R142): the CMD write of 0x00000001, legal in every phase. -/
def execInit (s : State) : Result := writeAccess (issueCommand .init) s

/-- ABSORB.n (R143): the CMD write of its word; ERR_SEQ outside ACTIVE, ERR_LEN past the longest message. -/
def execAbsorb (nb : BitVec 2) (s : State) : Result := writeAccess (issueCommand (.absorb nb)) s

/-- FINAL (R145): the CMD write of 0x00000003; ERR_SEQ outside ACTIVE. -/
def execFinal (s : State) : Result := writeAccess (issueCommand .final) s

end Sys2Proof.Machine
end

