-- ==== Sys2Proof/Machine/Flags.lean ====
section
/-! DEFINITION. The flags: the STATUS word (10_state.md R37) and its write-1-to-clear write (42_bus_access.md R166).
The engine has no other flags (R28, R29). -/

namespace Sys2Proof.Machine

/-- The two bits of PHASE (R25). -/
def phaseBits : Phase → BitVec 2
  | .idle => 0b00
  | .active => 0b01
  | .done => 0b10

/-- What STATUS reads (R37):
`zext_32(CNT ++ 0b0 ++ ERR_LEN ++ ERR_BUSY ++ ERR_CMD ++ ERR_SEQ ++ BUSY ++ PHASE)`. -/
def statusWord (s : State) : Word :=
  (s.hash.cnt ++ 0#1 ++ BitVec.ofBool s.err.len ++ BitVec.ofBool s.err.busy ++ BitVec.ofBool s.err.cmd ++
    BitVec.ofBool s.err.seq ++ BitVec.ofBool s.busy ++ phaseBits s.phase).setWidth 32

/-- The bit number of an error in STATUS, its code (R182). -/
def errorCode : ErrorKind → Nat
  | .seq => 3
  | .cmd => 4
  | .busy => 5
  | .len => 6

/-- A write of `v` to STATUS (R166): each error bit written as 1 becomes 0; every other bit of `v` is ignored. -/
def clearErrors (v : Word) (s : State) : State :=
  { s with
    err :=
      { seq := s.err.seq && !v.getLsbD (errorCode .seq)
        cmd := s.err.cmd && !v.getLsbD (errorCode .cmd)
        busy := s.err.busy && !v.getLsbD (errorCode .busy)
        len := s.err.len && !v.getLsbD (errorCode .len) } }

end Sys2Proof.Machine
end

