-- ==== Sys2Proof/Machine/BusAccess.lean ====
section
/-! DEFINITION. The host's register accesses (42_bus_access.md R160 to R174): one definition per bus-operation row. -/

namespace Sys2Proof.Machine

/-- RD ID (R161). -/
def execRdId (s : State) : Result := readAccess idValue s

/-- RD CMD (R163): the register holds nothing and reads 0. -/
def execRdCmd (s : State) : Result := readAccess 0#32 s

/-- RD STATUS (R165). -/
def execRdStatus (s : State) : Result := readAccess (statusWord s) s

/-- RD DIN (R167). -/
def execRdDin (s : State) : Result := readAccess s.din s

/-- RD BITLEN_LO (R169). -/
def execRdBitlenLo (s : State) : Result := readAccess (bitlenLo s) s

/-- RD BITLEN_HI (R170). -/
def execRdBitlenHi (s : State) : Result := readAccess (bitlenHi s) s

/-- RD RSVD6, RD RSVD7 (R171): both reserved words read 0. -/
def execRdRsvd (_low : BitVec 1) (s : State) : Result := readAccess 0#32 s

/-- RD DIGESTi (R172). -/
def execRdDigest (i : BitVec 3) (s : State) : Result := readAccess (digestWord i s) s

/-- WR ID (R162): ignored. -/
def execWrId (_v : Word) (s : State) : Result := writeAccess (fun t => t) s

/-- WR CMD (R164): `issue(v)`. -/
def execWrCmd (v : Word) (s : State) : Result := writeAccess (issue v) s

/-- WR STATUS (R166): clears the error bits written as 1. -/
def execWrStatus (v : Word) (s : State) : Result := writeAccess (clearErrors v) s

/-- WR DIN (R168). -/
def execWrDin (v : Word) (s : State) : Result := writeAccess (fun t => { t with din := v }) s

/-- WR BITLEN_LO, WR BITLEN_HI (R162): ignored. -/
def execWrBitlen (_hi : BitVec 1) (_v : Word) (s : State) : Result := writeAccess (fun t => t) s

/-- WR RSVD6, WR RSVD7 (R171): ignored. -/
def execWrRsvd (_low : BitVec 1) (_v : Word) (s : State) : Result := writeAccess (fun t => t) s

/-- WR DIGESTi (R162): ignored. -/
def execWrDigest (_i : BitVec 3) (_v : Word) (s : State) : Result := writeAccess (fun t => t) s

end Sys2Proof.Machine
end

