-- ==== Sys2Proof/Machine/Dispatch.lean ====
section
/-! DEFINITION. One arm per instruction: a direct call of its meaning. -/

namespace Sys2Proof.Machine

def exec (i : Instr) (s : State) : Host.Outcome State Fault Refusal :=
  match i with
  | .nop => Sys2Proof.Machine.execNop s
  | .init => Sys2Proof.Machine.execInit s
  | .absorb nb => Sys2Proof.Machine.execAbsorb nb s
  | .final => Sys2Proof.Machine.execFinal s
  | .rdId => Sys2Proof.Machine.execRdId s
  | .rdCmd => Sys2Proof.Machine.execRdCmd s
  | .rdStatus => Sys2Proof.Machine.execRdStatus s
  | .rdDin => Sys2Proof.Machine.execRdDin s
  | .rdBitlenLo => Sys2Proof.Machine.execRdBitlenLo s
  | .rdBitlenHi => Sys2Proof.Machine.execRdBitlenHi s
  | .rdRsvd low => Sys2Proof.Machine.execRdRsvd low s
  | .rdDigest k => Sys2Proof.Machine.execRdDigest k s
  | .wrId v => Sys2Proof.Machine.execWrId v s
  | .wrCmd v => Sys2Proof.Machine.execWrCmd v s
  | .wrStatus v => Sys2Proof.Machine.execWrStatus v s
  | .wrDin v => Sys2Proof.Machine.execWrDin v s
  | .wrBitlen hi v => Sys2Proof.Machine.execWrBitlen hi v s
  | .wrRsvd low v => Sys2Proof.Machine.execWrRsvd low v s
  | .wrDigest k v => Sys2Proof.Machine.execWrDigest k v s

end Sys2Proof.Machine
end

