-- ==== Sys2Proof/Machine/Agents.lean ====
section
/-! DEFINITION. The agents and what each does in one step (20_memory.md R60): the engine completes the pending command
(R148), the host runs one line of its program (30_encoding.md R88 to R90), the platform moves the reset line (R210) or
lets another bus master in (R66). One step of the machine is one step of one agent; which one moves is read from
State (notes/assumptions/1.md). -/

namespace Sys2Proof.Machine

/-- One access or command given in its encoded form: decode it and run it. A reserved command word is no
instruction; carried to CMD it has the effect of that write, ERR_CMD (R86, R184). -/
def runAccess (e : Encoded) (s : State) : Result :=
  match decode e with
  | .ok i => exec i s
  | .error (.reservedCommand v) => exec (.wrCmd v) s

/-- The value of a host variable (R88). -/
def hostVar (k : VarName) (s : State) : Word := s.host.vars[k.val]

/-- `vK <- v` (R88). -/
def setHostVar (k : VarName) (v : Word) (s : State) : State :=
  { s with host := { s.host with vars := s.host.vars.set k.val v } }

/-- The host goes to its next line. -/
def nextLine (s : State) : State := { s with host := { s.host with pos := s.host.pos + 1 } }

/-- The host goes to `label` (R88). A label the program does not have stops the machine by name. -/
def goToLine (target : Nat) (s : State) : Result :=
  if target < s.host.prog.length then .next { s with host := { s.host with pos := target } }
  else .fault (.noSuchLabel target)

/-- The word index of a raw host access (R51, R52): inside the window, `off[5:2]` of an aligned word; anything else
is the platform's and is refused (93 I1, I2). -/
def rawIndex (addr : Nat) (size : AccessSize) : Except Refusal (BitVec 4) :=
  if ¬(Config.base ≤ addr ∧ addr < Config.base + Config.windowBytes) then .error (.outsideWindow addr)
  else if size ≠ .word ∨ addr % 4 ≠ 0 then .error (.notAlignedWord addr size)
  else .ok (BitVec.ofNat 4 ((addr - Config.base) / 4))

/-- A host read into `vK` of word index `idx` (R88, R160): the access, then `vK` takes the bus's data. -/
def readInto (k : VarName) (idx : BitVec 4) (s : State) : Result :=
  onNext (runAccess (encodeRead idx) s) fun t => nextLine (setHostVar k t.rdata t)

/-- A host write of `v` to word index `idx` (R88, R160). -/
def writeTo (idx : BitVec 4) (v : Word) (s : State) : Result :=
  onNext (runAccess (encodeWrite idx v) s) nextLine

/-- One line of the host's program (R88, R90). HALT ends the program: the host stays at it (R222). -/
def hostLine (l : HostLine) (s : State) : Result :=
  match l with
  | .wr r imm => writeTo r.index imm s
  | .wrv r k => writeTo r.index (hostVar k s) s
  | .rd k r => readInto k r.index s
  | .li k imm => .next (nextLine (setHostVar k imm s))
  | .addi k j imm => .next (nextLine (setHostVar k (hostVar j s + imm) s))
  | .andi k j imm => .next (nextLine (setHostVar k (hostVar j s &&& imm) s))
  | .bne k imm target => if hostVar k s ≠ imm then goToLine target s else .next (nextLine s)
  | .beq k imm target => if hostVar k s = imm then goToLine target s else .next (nextLine s)
  | .halt => .next s
  | .send e => onNext (runAccess e s) nextLine
  | .load k addr size =>
    match rawIndex addr size with
    | .ok idx => readInto k idx s
    | .error r => .refused r
  | .store addr size v =>
    match rawIndex addr size with
    | .ok idx => writeTo idx v s
    | .error r => .refused r

/-- The line the host is at, if it has one. -/
def currentLine (s : State) : Option HostLine := s.host.prog[s.host.pos]?

/-- The host's step. A host with no line left does nothing (notes/assumptions/16.md). -/
def hostStep (s : State) : Result :=
  match currentLine s with
  | none => .next s
  | some l => hostLine l s

/-- One step of another agent passes while a command is pending: its remaining delay shrinks by one. -/
def elapse (s : State) : State := { s with delay := s.delay - 1 }

/-- Whether the engine's completion step is the next one: a command is pending, its delay has run out, and the
engine is not held in reset (R148, R210). -/
def engineReady (s : State) : Bool := s.rstN && s.busy && s.delay == 0

/-- The step of the engine or of the host. -/
def agentStep (s : State) : Result :=
  if engineReady s then .next (complete s) else hostStep (elapse s)

/-- One step of the machine: the platform's event if its input list has one, else the engine or the host. -/
def machineStep (s : State) : Result :=
  match s.platform with
  | [] => agentStep s
  | .pass :: rest => agentStep { s with platform := rest }
  | .rst level :: rest => .next (setResetLine level { s with platform := rest })
  | .access e :: rest => runAccess e (elapse { s with platform := rest })

/-- A run of the host's program has ended: the host is at HALT and BUSY = 0 (R222). DESIGN CHOICE: R222 does not say
what happens to accesses by other masters at the end of a run; here they still run after HALT, so this predicate is
about one state, and a command that another master issues makes it false until its completion
(notes/assumptions/27.md). -/
def runEnded (s : State) : Bool := currentLine s == some .halt && !s.busy

/-- Place the encoded operation `e` so that the very next step runs it: a host program of that one line, no platform
event first, and the engine not yet due (notes/assumptions/5.md). -/
def placeNext (e : Encoded) (s : State) : State :=
  { s with
    host := { s.host with prog := [.send e], pos := 0 }
    platform := .pass :: s.platform
    delay := s.delay + 1 }

/-! ## The pseudo-instructions of 30_encoding.md R89, as the lines they stand for; `at0` is the number of the first. -/

/-- `POLL`. -/
def pollLines (at0 : Nat) : List HostLine := [.rd 7 .status, .andi 7 7 0x4#32, .bne 7 0#32 at0]

/-- A command mnemonic (R88) and `POLL`. -/
def commandAndPoll (c : Command) (at0 : Nat) : List HostLine :=
  .wr .cmd (encodeCommand c) :: pollLines (at0 + 1)

/-- `INITW`. -/
def initwLines (at0 : Nat) : List HostLine := commandAndPoll .init at0

/-- `ABS n, imm32` with `n = nb + 1`. -/
def absLines (nb : BitVec 2) (imm : Word) (at0 : Nat) : List HostLine :=
  .wr .din imm :: commandAndPoll (.absorb nb) (at0 + 1)

/-- `FINALW`. -/
def finalwLines (at0 : Nat) : List HostLine := commandAndPoll .final at0

/-- `CLRERR`. -/
def clrerrLines : List HostLine := [.wr .status 0x00000078#32]

/-- `RDDIG`. -/
def rddigLines : List HostLine :=
  (List.finRange 8).map fun k => .rd k (.digest (BitVec.ofNat 3 k.val))

/-- The `ABS` lines of a message, four bytes at a time and then the last one to three with zeros after them (R89). -/
def absorbLines : List Byte → Nat → List HostLine
  | b0 :: b1 :: b2 :: b3 :: rest, at0 => absLines 3 (be32 b0 b1 b2 b3) at0 ++ absorbLines rest (at0 + 5)
  | [b0, b1, b2], at0 => absLines 2 (be32 b0 b1 b2 0#8) at0
  | [b0, b1], at0 => absLines 1 (be32 b0 b1 0#8 0#8) at0
  | [b0], at0 => absLines 0 (be32 b0 0#8 0#8 0#8) at0
  | [], _ => []

/-- `HASH "s"`. -/
def hashLines (m : List Byte) (at0 : Nat) : List HostLine :=
  let body := absorbLines m (at0 + 4)
  initwLines at0 ++ body ++ finalwLines (at0 + 4 + body.length)

end Sys2Proof.Machine
end

