-- ==== Sys2Proof/Machine/Step.lean ====
section
/-! DEFINITION. One step of the machine, and the placing of one instruction where the next step finds it. -/

namespace Sys2Proof.Machine

/-- One step (20_memory.md R60): `machineStep`. -/
def step (s : State) : Host.Outcome State Fault Refusal := Sys2Proof.Machine.machineStep s

/-- `s` with the instruction whose bits are `w` (numbered as the opcode table numbers them) placed where the next
step takes its operation; bits that are no encoded object place nothing (notes/assumptions/5.md, 6.md). -/
def State.withFetchWord (s : State) (nbits w : Nat) : State :=
  match encodedOfBits nbits w with
  | some e => placeNext e s
  | none => s

end Sys2Proof.Machine
end

