-- ==== Sys2Proof/Safety.lean ====
section
/-! DEFINITION. The terms in which claims speak of safe runs: which instructions read and which write CMD, when the
engine accepts a command, the invariants of 10_state.md R30, and a command run to its completion
(70_reset_and_hazards.md R213: "waiting for BUSY = 0"). -/

namespace Sys2Proof.Machine

/-- The engine is out of reset and has no command pending: a CMD write is checked and may be accepted (R140). -/
abbrev Accepting (s : State) : Prop := s.rstN = true ∧ s.busy = false

/-- The register reads of 42_bus_access.md. -/
def isRead : Instr → Bool
  | .rdId => true
  | .rdCmd => true
  | .rdStatus => true
  | .rdDin => true
  | .rdBitlenLo => true
  | .rdBitlenHi => true
  | .rdRsvd _ => true
  | .rdDigest _ => true
  | .nop => false
  | .init => false
  | .absorb _ => false
  | .final => false
  | .wrId _ => false
  | .wrCmd _ => false
  | .wrStatus _ => false
  | .wrDin _ => false
  | .wrBitlen _ _ => false
  | .wrRsvd _ _ => false
  | .wrDigest _ _ => false

/-- The word an instruction writes to CMD, if it writes CMD: a command mnemonic writes its command word (R88). -/
def cmdWordOf : Instr → Option Word
  | .nop => some (encodeCommand .nop)
  | .init => some (encodeCommand .init)
  | .absorb nb => some (encodeCommand (.absorb nb))
  | .final => some (encodeCommand .final)
  | .wrCmd v => some v
  | .rdId => none
  | .rdCmd => none
  | .rdStatus => none
  | .rdDin => none
  | .rdBitlenLo => none
  | .rdBitlenHi => none
  | .rdRsvd _ => none
  | .rdDigest _ => none
  | .wrId _ => none
  | .wrStatus _ => none
  | .wrDin _ => none
  | .wrBitlen _ _ => none
  | .wrRsvd _ _ => none
  | .wrDigest _ _ => none

/-- Every element of the engine is at the reset value that the table of R20 lists. -/
structure EngineAtReset (s : State) : Prop where
  h : ∀ i : Fin 8, s.hash.h[i.val] = 0#32
  buf : ∀ j : Fin 64, s.hash.buf[j.val] = 0#8
  cnt : s.hash.cnt = 0#6
  bitlen : s.hash.bitlen = 0#64
  phase : s.phase = .idle
  pend : s.pend = none
  busy : s.busy = false
  din : s.din = 0x00000000#32
  errSeq : s.err.seq = false
  errCmd : s.err.cmd = false
  errBusy : s.err.busy = false
  errLen : s.err.len = false

/-- The error bit named `e` (R28, R182). -/
def errorBit (e : ErrorKind) (b : Errors) : Bool :=
  match e with
  | .seq => b.seq
  | .cmd => b.cmd
  | .busy => b.busy
  | .len => b.len

/-- The host's lines that reach the engine as nothing (R88, R90). -/
def isHostLocal : HostLine → Bool
  | .li _ _ => true
  | .addi _ _ _ => true
  | .andi _ _ _ => true
  | .bne _ _ _ => true
  | .beq _ _ _ => true
  | .halt => true
  | .wr _ _ => false
  | .wrv _ _ => false
  | .rd _ _ => false
  | .send _ => false
  | .load _ _ _ => false
  | .store _ _ _ => false

/-- A command `(op, n)` passes the checks of R140 in the state `s` (R26, R30 item 6). -/
def pendingFits (op : Op) (n : Nat) (s : State) : Prop :=
  match op with
  | .init => n = 1
  | .absorb => s.phase = .active ∧ 1 ≤ n ∧ n ≤ 4 ∧ s.hash.bitlen.toNat + 8 * n ≤ bitlenMax
  | .final => n = 1 ∧ s.phase = .active

/-- The invariants of R30 that hold between any two steps (item 1, `CNT < 64`, is CNT's type), that BITLEN is a
multiple of 8 (R24), and that the engine in reset holds its reset values (R210). -/
structure Inv (s : State) : Prop where
  idle : s.phase = .idle → s.hash.cnt = 0#6 ∧ s.hash.bitlen = 0#64
  active : s.phase = .active → s.hash.cnt.toNat = s.hash.bitlen.toNat / 8 % 64
  done : s.phase = .done → s.hash.cnt = 0#6 ∧ s.hash.buf = zeroBlock
  wholeBytes : s.hash.bitlen.toNat % 8 = 0
  emptyTail : ∀ j : Fin 64, s.hash.cnt.toNat ≤ j.val → s.hash.buf[j.val] = 0#8
  pending : ∀ p, s.pend = some p → pendingFits p.op p.n s
  inReset : s.rstN = false → EngineAtReset s

/-- One instruction, and the completion of its command if one is pending after it: the host waits for BUSY = 0
before it goes on (R213). `none` if the instruction stops. -/
def runToIdle (i : Instr) (s : State) : Option State :=
  match exec i s with
  | .next t => some (complete t)
  | .fault _ => none
  | .refused _ => none

/-- A sequence of instructions, each run to idle (R213). -/
def runSequence : List Instr → State → Option State
  | [], s => some s
  | i :: is, s => (runToIdle i s).bind (runSequence is)

/-- One ABSORB of a message: its NB and the data word put in DIN for it. -/
abbrev Piece := BitVec 2 × Word

/-- The bytes the ABSORB commands of a message take, in order (R85, R143). -/
def messageOf (ps : List Piece) : List Byte := ps.flatMap fun p => absorbedBytes (byteCount p.1) p.2

/-- The instructions that feed a message: for each piece a DIN write and an ABSORB (R89 `ABS`). -/
def feedInstrs (ps : List Piece) : List Instr := ps.flatMap fun p => [.wrDin p.2, .absorb p.1]

/-- The instructions of one hash computation (R213 items 3 to 5): INIT, the message, FINAL. -/
def hashInstrs (ps : List Piece) : List Instr := .init :: (feedInstrs ps ++ [.final])

end Sys2Proof.Machine
end

