-- ==== Sys2Proof/Certificates/Slice0/Obligations.lean ====
section
/-! DEFINITION. The statements for the provers: what the spec's numbered rules say that commands, register accesses,
errors, reset, the SHA-256 core and the agents do. Each docstring names its rules; a statement that rests on a choice
of the model names its log entry. -/

open Sys2Proof Sys2Proof.Machine

/-! ## Encoding (30_encoding.md) -/

/-- R86: a command word is reserved exactly when OP is 0x4 to 0xF, or OP is 0x0, 0x1 or 0x3 with a bit of [31:4] set,
or OP is 0x2 with a bit of [31:6] set. -/
def Obligations.ReservedWordsAreExactlyThese : Prop :=
  ∀ v : Word, decodeCmdw v = none ↔
    (4 ≤ (v.extractLsb' 0 4).toNat ∨
      ((v.extractLsb' 0 4 = 0x0#4 ∨ v.extractLsb' 0 4 = 0x1#4 ∨ v.extractLsb' 0 4 = 0x3#4) ∧ v.extractLsb' 4 28 ≠ 0#28) ∨
      (v.extractLsb' 0 4 = 0x2#4 ∧ v.extractLsb' 6 26 ≠ 0#26))

/-- R82: the full CMDW values of the four commands, and every OP from 0x4 on is reserved. -/
def Obligations.CommandWordsAreExactlyTheTable : Prop :=
  ∀ v : Word,
    (decodeCmdw v = some .nop ↔ v = 0x00000000#32) ∧
    (decodeCmdw v = some .init ↔ v = 0x00000001#32) ∧
    (decodeCmdw v = some (.absorb 0) ↔ v = 0x00000002#32) ∧
    (decodeCmdw v = some (.absorb 1) ↔ v = 0x00000012#32) ∧
    (decodeCmdw v = some (.absorb 2) ↔ v = 0x00000022#32) ∧
    (decodeCmdw v = some (.absorb 3) ↔ v = 0x00000032#32) ∧
    (decodeCmdw v = some .final ↔ v = 0x00000003#32) ∧
    (4 ≤ (v.extractLsb' 0 4).toNat → decodeCmdw v = none)

/-- Decoding the encoding of any well-formed instruction gives it back, at every operand value. -/
def Obligations.DecodeOfEncodeIsTheInstruction : Prop :=
  ∀ i : Instr, i.wellFormed = true → decode (encode i) = .ok i

/-- Every well-formed encoded object that decodes is the encoding of what it decodes to: no two encodings of one
operation, no bit ignored. -/
def Obligations.EncodeOfDecodedIsTheObject : Prop :=
  ∀ (e : Encoded) (i : Instr), e.wellFormed = true → decode e = .ok i → encode i = e

/-- A few words written out from R82 and R83 decode to what they stand for (the numbering of bits: log entry 6). -/
def Obligations.WrittenOutWordsDecode : Prop :=
  decodeTableWord 32 0x00000001 = some .init ∧
    decodeTableWord 32 0x00000022 = some (.absorb 2) ∧
    decodeTableWord 8 0x02 = some .rdStatus ∧
    decodeTableWord 8 0x0F = some (.rdDigest 7) ∧
    decodeTableWord 8 0x17 = some (.wrRsvd 1 0) ∧
    decodeTableWord 32 0x00000042 = none

/-- R57: the offsets of the named registers, and every word of the window has exactly one register. -/
def Obligations.RegisterMapCoversTheWindow : Prop :=
  RegName.off .id = 0x00 ∧ RegName.off .cmd = 0x04 ∧ RegName.off .status = 0x08 ∧ RegName.off .din = 0x0C ∧
    RegName.off .bitlenLo = 0x10 ∧ RegName.off .bitlenHi = 0x14 ∧ RegName.off .rsvd6 = 0x18 ∧ RegName.off .rsvd7 = 0x1C ∧
    (∀ i : BitVec 3, RegName.off (.digest i) = 0x20 + 4 * i.toNat) ∧
    (∀ idx : BitVec 4, ∃ r : RegName, r.index = idx ∧ ∀ r' : RegName, r'.index = idx → r' = r)

/-! ## Reset (70_reset_and_hazards.md) -/

/-- R20: the engine's elements right after reset, and R210: STATUS reads 0. -/
def Obligations.ResetLeavesTheListedValues : Prop :=
  EngineAtReset State.reset ∧ State.reset.rstN = true ∧ statusWord State.reset = 0x00000000#32

/-- R210: from any state, `rst_n` going low is one step after which every element is at its reset value; it is held
there while `rst_n` stays low; when `rst_n` goes high the engine is in that state, accepts accesses, and STATUS reads 0.
The host agent is not touched (log entry 4). -/
def Obligations.ResetEvent : Prop :=
  ∀ (s : State) (rest : List PlatformEvent),
    (s.platform = .rst false :: rest →
      ∃ t, step s = .next t ∧ t.rstN = false ∧ EngineAtReset t ∧ t.host = s.host ∧ t.platform = rest) ∧
    (s.rstN = false → EngineAtReset s → s.platform.head? ≠ some (.rst true) →
      ∀ t, step s = .next t → t.rstN = false ∧ EngineAtReset t) ∧
    (s.rstN = false → s.platform = .rst true :: rest →
      ∃ t, step s = .next t ∧ Accepting t ∧ EngineAtReset t ∧ t.host = s.host ∧
        exec .rdStatus t = .next { t with rdata := 0x00000000#32 })

/-- R211: a reset while a command is pending discards it with none of its effect, and host accesses while `rst_n` is
low have no effect and their reads return 0 (ID's too: log entry 9; a write leaves `rdata`: log entry 8). -/
def Obligations.ResetDiscardsTheCommandAndBlocksAccesses : Prop :=
  (∀ (s : State) (p : Pending) (rest : List PlatformEvent), s.pend = some p → s.platform = .rst false :: rest →
    ∃ t, step s = .next t ∧ t.pend = none ∧ EngineAtReset t) ∧
  ∀ (i : Instr) (s : State), s.rstN = false →
    exec i s = .next { s with rdata := if isRead i = true then 0x00000000#32 else s.rdata }

/-! ## Commands (41_commands.md) -/

/-- R141: CMDW 0x00000000 is NOP; it has no effect and is never pending, in every phase; written while BUSY it sets
ERR_BUSY only. -/
def Obligations.NopHasNoEffect : Prop :=
  decode (.cmdw 0x00000000#32) = .ok .nop ∧
  ∀ s : State, (Accepting s → exec .nop s = .next s) ∧
    (s.rstN = true → s.busy = true → exec .nop s = .next { s with err := { s.err with busy := true } })

/-- R142: CMDW 0x00000001 is INIT, accepted in every phase; at issue only PEND changes (the model's own delay fields of
log entry 2 apart), and its completion loads the eight words of R109, empties the buffer, zeroes CNT and BITLEN, goes to
ACTIVE, and changes nothing else. Written while BUSY it sets ERR_BUSY only. -/
def Obligations.InitRestartsTheComputation : Prop :=
  decode (.cmdw 0x00000001#32) = .ok .init ∧
  ∀ s : State,
    (Accepting s → ∃ t, exec .init s = .next t ∧
      t = { s with
        pend := some { op := .init, n := 1, data := s.din }
        delay := t.delay
        issues := t.issues
        latencies := t.latencies } ∧
      t.busy = true ∧
      complete t = { t with
        hash :=
          { h := #v[0x6A09E667#32, 0xBB67AE85#32, 0x3C6EF372#32, 0xA54FF53A#32,
              0x510E527F#32, 0x9B05688C#32, 0x1F83D9AB#32, 0x5BE0CD19#32]
            buf := Vector.replicate 64 0x00#8
            cnt := 0#6
            bitlen := 0#64 }
        phase := .active
        pend := none }) ∧
    (s.rstN = true → s.busy = true → exec .init s = .next { s with err := { s.err with busy := true } })

/-- R143: the encodings of ABSORB.n; one in ACTIVE within the length limit is latched with DIN; its completion runs AbsorbByte on bytes
`d[31 - 8j : 24 - 8j]`, j = 0..n-1, in order, leaves CNT = (CNT + n) mod 64, and changes nothing but the hash state.
Errors at issue only: ERR_BUSY, then ERR_SEQ, then ERR_LEN. (The model's own delay fields, log entry 2, apart.) -/
def Obligations.AbsorbTakesItsBytes : Prop :=
  (decode (.cmdw 0x00000002#32) = .ok (.absorb 0) ∧ decode (.cmdw 0x00000012#32) = .ok (.absorb 1) ∧
    decode (.cmdw 0x00000022#32) = .ok (.absorb 2) ∧ decode (.cmdw 0x00000032#32) = .ok (.absorb 3)) ∧
  ∀ (nb : BitVec 2) (s : State), s.rstN = true →
    (s.busy = true → exec (.absorb nb) s = .next { s with err := { s.err with busy := true } }) ∧
    (s.busy = false → s.phase ≠ .active →
      exec (.absorb nb) s = .next { s with err := { s.err with seq := true } }) ∧
    (s.busy = false → s.phase = .active → s.hash.bitlen.toNat + 8 * (nb.toNat + 1) > 2 ^ 64 - 1 →
      exec (.absorb nb) s = .next { s with err := { s.err with len := true } }) ∧
    (s.busy = false → s.phase = .active → s.hash.bitlen.toNat + 8 * (nb.toNat + 1) ≤ 2 ^ 64 - 1 →
      ∃ t, exec (.absorb nb) s = .next t ∧
        t = { s with
          pend := some { op := .absorb, n := nb.toNat + 1, data := s.din }
          delay := t.delay
          issues := t.issues
          latencies := t.latencies } ∧
        (complete t).hash =
          (List.range (nb.toNat + 1)).foldl (fun x j => absorbByte x (s.din.extractLsb' (24 - 8 * j) 8)) s.hash ∧
        (complete t).hash.cnt.toNat = (s.hash.cnt.toNat + nb.toNat + 1) % 64 ∧
        (complete t).hash.bitlen.toNat = s.hash.bitlen.toNat + 8 * (nb.toNat + 1) ∧
        complete t = { t with hash := (complete t).hash, pend := none })

/-- R144: AbsorbByte puts the byte at index CNT and adds 8 to BITLEN; below 63 bytes it counts it, and the 64th byte
compresses the full block and empties the buffer. -/
def Obligations.AbsorbByteFillsTheBlock : Prop :=
  ∀ (x : HashState) (b : Byte),
    (absorbByte x b).bitlen = x.bitlen + 8#64 ∧
    (x.cnt.toNat < 63 →
      (absorbByte x b).h = x.h ∧ (absorbByte x b).cnt.toNat = x.cnt.toNat + 1 ∧
        ∀ j : Fin 64, (absorbByte x b).buf[j.val] = if j.val = x.cnt.toNat then b else x.buf[j.val]) ∧
    (x.cnt.toNat = 63 →
      (absorbByte x b).h = compress x.h (Vector.ofFn fun j => if j.val = 63 then b else x.buf[j.val]) ∧
        (absorbByte x b).cnt = 0#6 ∧ ∀ j : Fin 64, (absorbByte x b).buf[j.val] = 0#8)

/-- R145: CMDW 0x00000003 is FINAL; in ACTIVE it is latched; its completion pads, goes to DONE, leaves CNT 0 and the buffer zero, and keeps
BITLEN at the message length. Errors at issue only: ERR_BUSY, then ERR_SEQ outside ACTIVE. (The model's own
delay fields, log entry 2, apart.) -/
def Obligations.FinalPadsAndGoesToDone : Prop :=
  decode (.cmdw 0x00000003#32) = .ok .final ∧
  ∀ s : State, s.rstN = true →
    (s.busy = true → exec .final s = .next { s with err := { s.err with busy := true } }) ∧
    (s.busy = false → s.phase ≠ .active → exec .final s = .next { s with err := { s.err with seq := true } }) ∧
    (s.busy = false → s.phase = .active →
      ∃ t, exec .final s = .next t ∧
        t = { s with
          pend := some { op := .final, n := 1, data := s.din }
          delay := t.delay
          issues := t.issues
          latencies := t.latencies } ∧
        complete t = { t with hash := pad s.hash, phase := .done, pend := none } ∧
        (pad s.hash).cnt = 0#6 ∧ (∀ j : Fin 64, (pad s.hash).buf[j.val] = 0#8) ∧ (pad s.hash).bitlen = s.hash.bitlen)

/-- R146: Pad's new H: with CNT at most 55, one compression of the buffered bytes, 0x80, zeros and the length; with CNT
56 or more, first one of the buffered bytes, 0x80 and zeros, then one of 56 zero bytes and the length. CNT becomes 0, the
buffer zero, and BITLEN stays. -/
def Obligations.PadCompressesOneOrTwoBlocks : Prop :=
  ∀ x : HashState,
    (pad x).h =
        (if x.cnt.toNat ≤ 55 then
          compress x.h (Vector.ofFn fun j =>
            if j.val < x.cnt.toNat then x.buf[j.val] else if j.val = x.cnt.toNat then 0x80#8
            else if j.val < 56 then 0#8 else x.bitlen.extractLsb' (56 - 8 * (j.val - 56)) 8)
        else
          compress
            (compress x.h (Vector.ofFn fun j =>
              if j.val < x.cnt.toNat then x.buf[j.val] else if j.val = x.cnt.toNat then 0x80#8 else 0#8))
            (Vector.ofFn fun j => if j.val < 56 then 0#8 else x.bitlen.extractLsb' (56 - 8 * (j.val - 56)) 8)) ∧
      (pad x).cnt = 0#6 ∧ (∀ j : Fin 64, (pad x).buf[j.val] = 0#8) ∧ (pad x).bitlen = x.bitlen

/-- R88: each command mnemonic is the CMD write of its word, in every state. -/
def Obligations.MnemonicIsTheCmdWriteOfItsWord : Prop :=
  ∀ (i : Instr) (v : Word) (s : State), cmdWordOf i = some v → exec i s = exec (.wrCmd v) s

/-- R140, R164, R187: a CMD write is checked in the order BUSY, reserved word, phase, length, and the first check that
fails sets its one error bit and nothing else; NOP changes nothing; an accepted command is latched as `(op, n, DIN)` and
changes only PEND, so BUSY reads 1 (the model's own delay fields of log entry 2 apart). BUSOP 0x11 is the CMD write. -/
def Obligations.CmdWriteIssuesInTheOrderOfTheChecks : Prop :=
  ∀ (v : Word) (s : State), decode (.busop 0x11#5 v) = .ok (.wrCmd v) ∧
    (s.rstN = true → ∃ t, exec (.wrCmd v) s = .next t ∧ t =
      if s.busy = true then { s with err := { s.err with busy := true } }
      else
        let accepted (op : Op) (n : Nat) : State := { s with
          pend := some { op := op, n := n, data := s.din }
          delay := t.delay
          issues := t.issues
          latencies := t.latencies }
        match decodeCmdw v with
        | none => { s with err := { s.err with cmd := true } }
        | some .nop => s
        | some .init => accepted .init 1
        | some (.absorb nb) =>
          if s.phase ≠ .active then { s with err := { s.err with seq := true } }
          else if s.hash.bitlen.toNat + 8 * (nb.toNat + 1) > 2 ^ 64 - 1 then { s with err := { s.err with len := true } }
          else accepted .absorb (nb.toNat + 1)
        | some .final =>
          if s.phase ≠ .active then { s with err := { s.err with seq := true } } else accepted .final 1)

/-- R149: the phase after an accepted or refused CMD write that finds no command pending and its completion: NOP and
refused commands keep it, INIT gives ACTIVE, ABSORB keeps ACTIVE, FINAL takes ACTIVE to DONE. -/
def Obligations.PhaseTable : Prop :=
  ∀ (c : Command) (s : State), Accepting s →
    ∃ t, exec c.instr s = .next t ∧ t.phase = s.phase ∧
      (complete t).phase =
        (match c with
        | .nop => s.phase
        | .init => .active
        | .absorb _ => s.phase
        | .final => if s.phase = .active then .done else s.phase) ∧
      (c = .final ∨ (∃ nb, c = .absorb nb) → s.phase ≠ .active → t = { s with err := { s.err with seq := true } })

/-! ## Errors (60_exceptions.md) -/

/-- R183: a CMD write of any word while a command is pending sets ERR_BUSY and changes nothing else. -/
def Obligations.BusyWriteSetsOnlyErrBusy : Prop :=
  ∀ (i : Instr) (v : Word) (s : State), cmdWordOf i = some v → s.rstN = true → s.busy = true →
    exec i s = .next { s with err := { s.err with busy := true } }

/-- R184: with nothing pending, a CMD write of a reserved word sets ERR_CMD and changes nothing else. -/
def Obligations.ReservedWriteSetsOnlyErrCmd : Prop :=
  ∀ (v : Word) (s : State), Accepting s → decodeCmdw v = none →
    exec (.wrCmd v) s = .next { s with err := { s.err with cmd := true } }

/-- R185: with nothing pending, a CMD write of ABSORB.n or FINAL outside ACTIVE sets ERR_SEQ and changes nothing else. -/
def Obligations.OutOfSequenceWriteSetsOnlyErrSeq : Prop :=
  ∀ (i : Instr) (v : Word) (s : State), cmdWordOf i = some v → Accepting s → s.phase ≠ .active →
    ((∃ nb, decodeCmdw v = some (.absorb nb)) ∨ decodeCmdw v = some .final) →
    exec i s = .next { s with err := { s.err with seq := true } }

/-- R186: in ACTIVE with nothing pending, a CMD write of an ABSORB.n that would take BITLEN past 2^64 - 1 sets ERR_LEN and
changes nothing else. -/
def Obligations.OverlongWriteSetsOnlyErrLen : Prop :=
  ∀ (i : Instr) (v : Word) (nb : BitVec 2) (s : State), cmdWordOf i = some v → Accepting s → s.phase = .active →
    decodeCmdw v = some (.absorb nb) → s.hash.bitlen.toNat + 8 * (nb.toNat + 1) > 2 ^ 64 - 1 →
    exec i s = .next { s with err := { s.err with len := true } }

/-- R188: an error bit stays 1 until a STATUS write of 1 to it (or reset, which no instruction is); a completion leaves
it; and it never blocks: changing the error bits changes neither what an instruction latches nor what it leaves in any
other element (`rdata` apart, since STATUS shows the bits), nor what a completion does. -/
def Obligations.ErrorBitsPersistAndNeverBlock : Prop :=
  (∀ (i : Instr) (s t : State) (e : ErrorKind), exec i s = .next t → errorBit e s.err = true →
    errorBit e t.err = true ∨ ∃ v : Word, i = .wrStatus v ∧ v.getLsbD (errorCode e) = true) ∧
  (∀ s : State, (complete s).err = s.err) ∧
  (∀ (s : State) (b : Errors), complete { s with err := b } = { complete s with err := b }) ∧
  ∀ (i : Instr) (s : State) (b : Errors), ∃ t t', exec i s = .next t ∧ exec i { s with err := b } = .next t' ∧
    t' = { t with err := t'.err, rdata := t'.rdata }

/-- R181: only a CMD write sets an error bit, and a write that sets one leaves every other element, every other error
bit and the pending command as they were. -/
def Obligations.RaisingChangesOnlyTheOneBit : Prop :=
  ∀ (i : Instr) (s t : State) (e : ErrorKind), exec i s = .next t → errorBit e t.err = true → errorBit e s.err = false →
    (∃ v, cmdWordOf i = some v) ∧ t = { s with err := t.err } ∧ ∀ e', e' ≠ e → errorBit e' t.err = errorBit e' s.err

/-! ## Register accesses (42_bus_access.md) -/

/-- R161: BUSOP 0x00 is the read of ID; it returns 0x53323536 and changes no state. -/
def Obligations.ReadOfId : Prop :=
  (∀ w : Word, decode (.busop 0x00#5 w) = .ok .rdId) ∧
  ∀ s : State, s.rstN = true → exec .rdId s = .next { s with rdata := 0x53323536#32 }

/-- R163: BUSOP 0x01 is the read of CMD; it returns 0, whatever was written to it, and changes no state. -/
def Obligations.ReadOfCmd : Prop :=
  (∀ w : Word, decode (.busop 0x01#5 w) = .ok .rdCmd) ∧
  ∀ s : State, s.rstN = true → exec .rdCmd s = .next { s with rdata := 0x00000000#32 }

/-- R171: reads of the two reserved words return 0, and writes to them have no effect. -/
def Obligations.ReservedWordsReadZeroAndIgnoreWrites : Prop :=
  (∀ (low : BitVec 1) (v : Word), decode (.busop (0b0011#4 ++ low) v) = .ok (.rdRsvd low) ∧
    decode (.busop (0b1011#4 ++ low) v) = .ok (.wrRsvd low v)) ∧
  ∀ (low : BitVec 1) (v : Word) (s : State), s.rstN = true →
    exec (.rdRsvd low) s = .next { s with rdata := 0x00000000#32 } ∧ exec (.wrRsvd low v) s = .next s

/-- R165, R37: every field of STATUS in the word a read returns, and no state changes. -/
def Obligations.ReadOfStatusShowsEveryField : Prop :=
  (∀ w : Word, decode (.busop 0x02#5 w) = .ok .rdStatus) ∧
  ∀ s : State, s.rstN = true → ∃ w : Word, exec .rdStatus s = .next { s with rdata := w } ∧
    w.extractLsb' 0 2 = (match s.phase with | .idle => 0b00#2 | .active => 0b01#2 | .done => 0b10#2) ∧
    w.getLsbD 2 = s.busy ∧ w.getLsbD 3 = s.err.seq ∧ w.getLsbD 4 = s.err.cmd ∧ w.getLsbD 5 = s.err.busy ∧
    w.getLsbD 6 = s.err.len ∧ w.getLsbD 7 = false ∧ w.extractLsb' 8 6 = s.hash.cnt ∧ w.extractLsb' 14 18 = 0#18

/-- R167: a read of DIN returns DIN and changes no state, and neither an ABSORB nor its completion changes DIN. -/
def Obligations.ReadOfDin : Prop :=
  (∀ w : Word, decode (.busop 0x03#5 w) = .ok .rdDin) ∧
  ∀ s : State, (s.rstN = true → exec .rdDin s = .next { s with rdata := s.din }) ∧
    ∀ nb : BitVec 2, ∃ t, exec (.absorb nb) s = .next t ∧ t.din = s.din ∧ (complete t).din = s.din

/-- R169, R170: the two BITLEN reads return the low and the high half of BITLEN; in a state with the invariants the low
three bits are 0, and in IDLE both halves are. -/
def Obligations.ReadsOfBitlenGiveItsHalves : Prop :=
  (∀ w : Word, decode (.busop 0x04#5 w) = .ok .rdBitlenLo ∧ decode (.busop 0x05#5 w) = .ok .rdBitlenHi) ∧
  ∀ s : State, s.rstN = true → ∃ lo hi : Word, exec .rdBitlenLo s = .next { s with rdata := lo } ∧
    exec .rdBitlenHi s = .next { s with rdata := hi } ∧ hi ++ lo = s.hash.bitlen ∧
    (Inv s → lo.extractLsb' 0 3 = 0b000#3 ∧ (s.phase = .idle → lo = 0#32 ∧ hi = 0#32))

/-- R172: DIGESTi reads `H[i]` in DONE and 0 in every other phase, pending or not. -/
def Obligations.ReadOfDigest : Prop :=
  (∀ (i : BitVec 3) (w : Word), decode (.busop (0b01#2 ++ i) w) = .ok (.rdDigest i)) ∧
  ∀ (i : BitVec 3) (s : State), s.rstN = true →
    exec (.rdDigest i) s = .next { s with rdata := if s.phase = .done then s.hash.h[i.toNat]'i.isLt else 0#32 }

/-- R162: writes to ID, BITLEN_LO, BITLEN_HI and DIGESTi complete and change nothing. -/
def Obligations.WritesToReadOnlyRegistersAreIgnored : Prop :=
  (∀ v : Word, decode (.busop 0x10#5 v) = .ok (.wrId v) ∧
    (∀ hi : BitVec 1, decode (.busop (0b1010#4 ++ hi) v) = .ok (.wrBitlen hi v)) ∧
    ∀ i : BitVec 3, decode (.busop (0b11#2 ++ i) v) = .ok (.wrDigest i v)) ∧
  ∀ (v : Word) (s : State), exec (.wrId v) s = .next s ∧ (∀ hi : BitVec 1, exec (.wrBitlen hi v) s = .next s) ∧
    ∀ i : BitVec 3, exec (.wrDigest i v) s = .next s

/-- R166: a STATUS write clears the error bits written as 1, leaves the others and every other element. -/
def Obligations.StatusWriteClearsWrittenOnes : Prop :=
  (∀ v : Word, decode (.busop 0x12#5 v) = .ok (.wrStatus v)) ∧
  ∀ (v : Word) (s : State), s.rstN = true → ∃ t, exec (.wrStatus v) s = .next t ∧
    t = { s with err := t.err } ∧ statusWord t = statusWord s &&& ~~~(v &&& 0x00000078#32) ∧
    t.err.seq = (s.err.seq && !v.getLsbD 3) ∧ t.err.cmd = (s.err.cmd && !v.getLsbD 4) ∧
    t.err.busy = (s.err.busy && !v.getLsbD 5) ∧ t.err.len = (s.err.len && !v.getLsbD 6)

/-- R168: BUSOP 0x13 is the DIN write; it stores the word and changes nothing else. -/
def Obligations.WriteOfDin : Prop :=
  (∀ v : Word, decode (.busop 0x13#5 v) = .ok (.wrDin v)) ∧
  ∀ (v : Word) (s : State), s.rstN = true → exec (.wrDin v) s = .next { s with din := v }

/-- R27, R217: a DIN write while a command is pending does not change what the command does at its completion. -/
def Obligations.PendingDataIsTheIssueTimeCopy : Prop :=
  ∀ (v : Word) (s : State), s.rstN = true → s.busy = true →
    ∃ t, exec (.wrDin v) s = .next t ∧ complete t = { complete s with din := v }

/-- R54: a read changes no state but the data it returns, and repeated returns the same. -/
def Obligations.ReadsHaveNoSideEffect : Prop :=
  ∀ (i : Instr) (s : State), isRead i = true →
    ∃ w : Word, exec i s = .next { s with rdata := w } ∧ exec i { s with rdata := w } = .next { s with rdata := w }

/-- R160: every instruction is one step to a next state, in every phase, every BUSY state and in reset, and one that is
no CMD write sets no error bit. -/
def Obligations.EveryAccessCompletes : Prop :=
  ∀ (i : Instr) (s : State), ∃ t, exec i s = .next t ∧
    (cmdWordOf i = none → ∀ e : ErrorKind, errorBit e t.err = true → errorBit e s.err = true)

/-- The frame of every instruction: H, BUF, CNT, BITLEN, PHASE, the reset line, the platform and the host agent never
change; DIN changes only by WR DIN, PEND (with the model's delay fields) only by a CMD write, the error bits only by a
CMD write or WR STATUS, and `rdata` only by a read. That last clause is the model's choice (log entry 8): R67 leaves
`rdata` open outside the cycle of a read. -/
def Obligations.FrameOfEveryInstruction : Prop :=
  ∀ (i : Instr) (s t : State), exec i s = .next t →
    t.hash = s.hash ∧ t.phase = s.phase ∧ t.rstN = s.rstN ∧ t.platform = s.platform ∧ t.host = s.host ∧
    ((∀ v, i ≠ .wrDin v) → t.din = s.din) ∧
    (cmdWordOf i = none → t.pend = s.pend ∧ t.delay = s.delay ∧ t.issues = s.issues ∧ t.latencies = s.latencies) ∧
    (cmdWordOf i = none → (∀ v, i ≠ .wrStatus v) → t.err = s.err) ∧
    (isRead i = false → t.rdata = s.rdata)

/-- R40, R42: outside DONE no instruction shows H or BUF. Run from two states that differ in H and BUF only, it leaves
two states that differ in H and BUF only; `rdata` is the same. -/
def Obligations.HiddenStateIsNotShownOutsideDone : Prop :=
  ∀ (i : Instr) (s : State) (h : Vector Word 8) (buf : Vector Byte 64), s.phase ≠ .done →
    ∃ t, exec i s = .next t ∧
      exec i { s with hash := { s.hash with h := h, buf := buf } } =
        .next { t with hash := { t.hash with h := h, buf := buf } }

/-- R147: in DONE with nothing pending no instruction changes the digest or leaves DONE, and INIT is the only command
it can leave pending. -/
def Obligations.DigestIsImmutableInDone : Prop :=
  ∀ (i : Instr) (s t : State), s.phase = .done → s.pend = none → exec i s = .next t →
    t.phase = .done ∧ t.hash = s.hash ∧ ∀ p, t.pend = some p → p.op = .init

/-! ## The SHA-256 core (40_sha256_core.md) -/

/-- R101, R102: bit `i` of a rotation is bit `(i + n) mod 32`, and a shift right brings zeros in at the top. -/
def Obligations.RotationAndShiftBitByBit : Prop :=
  ∀ (n : Nat) (x : Word) (i : Nat), 1 ≤ n → n ≤ 31 → i < 32 →
    (rotr n x).getLsbD i = x.getLsbD ((i + n) % 32) ∧
    (shr n x).getLsbD i = if i + n < 32 then x.getLsbD (i + n) else false

/-- R103, R104: Ch chooses the `y` or the `z` bit by the `x` bit, and Maj is the majority of three bits. -/
def Obligations.ChooseAndMajorityBitByBit : Prop :=
  ∀ (x y z : Word) (i : Nat), i < 32 →
    (ch x y z).getLsbD i = (if x.getLsbD i then y.getLsbD i else z.getLsbD i) ∧
    (maj x y z).getLsbD i = decide (2 ≤ (x.getLsbD i).toNat + (y.getLsbD i).toNat + (z.getLsbD i).toNat)

/-- R105 to R108: the four sigma functions bit by bit, with the spec's rotation and shift amounts. -/
def Obligations.SigmasBitByBit : Prop :=
  ∀ (x : Word) (i : Nat), i < 32 →
    (bsig0 x).getLsbD i = (x.getLsbD ((i + 2) % 32) ^^ x.getLsbD ((i + 13) % 32) ^^ x.getLsbD ((i + 22) % 32)) ∧
    (bsig1 x).getLsbD i = (x.getLsbD ((i + 6) % 32) ^^ x.getLsbD ((i + 11) % 32) ^^ x.getLsbD ((i + 25) % 32)) ∧
    (ssig0 x).getLsbD i = (x.getLsbD ((i + 7) % 32) ^^ x.getLsbD ((i + 18) % 32) ^^ x.getLsbD (i + 3)) ∧
    (ssig1 x).getLsbD i = (x.getLsbD ((i + 17) % 32) ^^ x.getLsbD ((i + 19) % 32) ^^ x.getLsbD (i + 10))

/-- R111, R112: the schedule has 64 words, the first 16 the block's big-endian words, each later one the recurrence. -/
def Obligations.ScheduleFollowsTheRecurrence : Prop :=
  ∀ b : Vector Byte 64, (schedule b).length = 64 ∧
    (∀ t : Fin 16, (schedule b)[t.val]? =
      some (b[4 * t.val] ++ b[4 * t.val + 1] ++ b[4 * t.val + 2] ++ b[4 * t.val + 3])) ∧
    ∀ t, 16 ≤ t → t < 64 →
      (schedule b).getD t 0#32 = ssig1 ((schedule b).getD (t - 2) 0#32) + (schedule b).getD (t - 7) 0#32 +
        ssig0 ((schedule b).getD (t - 15) 0#32) + (schedule b).getD (t - 16) 0#32

/-- R113 to R116: Compress runs 64 rounds in order from the working variables of H, each with its `W[t]` and its `K[t]`,
the 64 words of R110 written out, and adds the result to H word by word. -/
def Obligations.CompressIsSixtyFourRoundsAndFeedForward : Prop :=
  roundConstants =
    [0x428A2F98#32, 0x71374491#32, 0xB5C0FBCF#32, 0xE9B5DBA5#32, 0x3956C25B#32, 0x59F111F1#32, 0x923F82A4#32, 0xAB1C5ED5#32] ++
    [0xD807AA98#32, 0x12835B01#32, 0x243185BE#32, 0x550C7DC3#32, 0x72BE5D74#32, 0x80DEB1FE#32, 0x9BDC06A7#32, 0xC19BF174#32] ++
    [0xE49B69C1#32, 0xEFBE4786#32, 0x0FC19DC6#32, 0x240CA1CC#32, 0x2DE92C6F#32, 0x4A7484AA#32, 0x5CB0A9DC#32, 0x76F988DA#32] ++
    [0x983E5152#32, 0xA831C66D#32, 0xB00327C8#32, 0xBF597FC7#32, 0xC6E00BF3#32, 0xD5A79147#32, 0x06CA6351#32, 0x14292967#32] ++
    [0x27B70A85#32, 0x2E1B2138#32, 0x4D2C6DFC#32, 0x53380D13#32, 0x650A7354#32, 0x766A0ABB#32, 0x81C2C92E#32, 0x92722C85#32] ++
    [0xA2BFE8A1#32, 0xA81A664B#32, 0xC24B8B70#32, 0xC76C51A3#32, 0xD192E819#32, 0xD6990624#32, 0xF40E3585#32, 0x106AA070#32] ++
    [0x19A4C116#32, 0x1E376C08#32, 0x2748774C#32, 0x34B0BCB5#32, 0x391C0CB3#32, 0x4ED8AA4A#32, 0x5B9CCA4F#32, 0x682E6FF3#32] ++
    [0x748F82EE#32, 0x78A5636F#32, 0x84C87814#32, 0x8CC70208#32, 0x90BEFFFA#32, 0xA4506CEB#32, 0xBEF9A3F7#32, 0xC67178F2#32] ∧
  ∀ (h : Vector Word 8) (b : Vector Byte 64), ∃ v : Nat → WorkingVars,
    v 0 = { a := h[0], b := h[1], c := h[2], d := h[3], e := h[4], f := h[5], g := h[6], h := h[7] } ∧
    (∀ t, t < 64 →
      let x := v t
      let t1 := x.h + bsig1 x.e + ch x.e x.f x.g + roundConstants.getD t 0#32 + (schedule b).getD t 0#32
      let t2 := bsig0 x.a + maj x.a x.b x.c
      v (t + 1) = { a := t1 + t2, b := x.a, c := x.b, d := x.c, e := x.d + t1, f := x.e, g := x.f, h := x.g }) ∧
    compress h b =
      #v[h[0] + (v 64).a, h[1] + (v 64).b, h[2] + (v 64).c, h[3] + (v 64).d,
         h[4] + (v 64).e, h[5] + (v 64).f, h[6] + (v 64).g, h[7] + (v 64).h]

/-- R117: the padded message is the message, 0x80, the fewest zero bytes that give whole blocks, and the bit length;
it has `floor((L + 8) / 64) + 1` blocks. -/
def Obligations.PaddedMessageIsWholeBlocks : Prop :=
  ∀ m : List Byte, 8 * m.length ≤ 2 ^ 64 - 8 →
    ∃ z, padMessage m = m ++ [0x80#8] ++ List.replicate z 0#8 ++ be64 (BitVec.ofNat 64 (8 * m.length)) ∧
      (padMessage m).length = 64 * ((m.length + 8) / 64 + 1) ∧
      ∀ z' : Nat, (m.length + 1 + z' + 8) % 64 = 0 → z ≤ z'

/-- R56: the digest bytes are the words' bytes, most significant first. -/
def Obligations.DigestBytesAreBigEndian : Prop :=
  ∀ (h : Vector Word 8), (digestBytes h).length = 32 ∧
    ∀ (i : Fin 8) (j : Fin 4), (digestBytes h)[4 * i.val + j.val]? = some ((h[i.val]).extractLsb' (24 - 8 * j.val) 8)

/-- R150: what a run of accepted ABSORB commands leaves in H, BUF, CNT and BITLEN depends only on the bytes absorbed, not on
their division among commands, and so does the digest after FINAL. -/
def Obligations.SplitInvariance : Prop :=
  ∀ (ps qs : List Piece) (s t u : State), s.phase = .active → Accepting s →
    s.hash.bitlen.toNat + 8 * (messageOf ps).length ≤ 2 ^ 64 - 1 → messageOf ps = messageOf qs →
    runSequence (feedInstrs ps) s = some t → runSequence (feedInstrs qs) s = some u →
    t.hash = u.hash ∧ ∀ t' u', runToIdle .final t = some t' → runToIdle .final u = some u' →
      t'.phase = .done ∧ u'.phase = .done ∧ t'.hash = u'.hash

/-- R118, R213: for every message cut into ABSORB commands in any way, INIT, the ABSORBs and FINAL, each run to its
completion, end in DONE with H equal to SHA256 of the message, and the DIGEST registers read its words. From any state
out of reset with nothing pending. -/
def Obligations.DigestIsSha256OfTheMessage : Prop :=
  ∀ (ps : List Piece) (s : State), Accepting s → 8 * (messageOf ps).length ≤ 2 ^ 64 - 8 →
    ∃ t, runSequence (hashInstrs ps) s = some t ∧ t.phase = .done ∧ t.busy = false ∧
      t.hash.h = sha256 (messageOf ps) ∧ t.hash.bitlen.toNat = 8 * (messageOf ps).length ∧
      ∀ i : BitVec 3, exec (.rdDigest i) t = .next { t with rdata := (sha256 (messageOf ps))[i.toNat]'i.isLt }

/-! ## Agents and steps (20_memory.md, 41_commands.md R148, 70_reset_and_hazards.md) -/

/-- A step runs the decoded instruction. When neither a reset nor another master nor the engine comes first and the
host's next line is an encoded object that decodes to a well-formed instruction `i`, the step is `exec i`, after one step
of the pending command's delay has passed, and then the host goes to its next line. When another master's access (R66)
comes first, the step is `exec` of what it decodes to (log entries 1, 2, 3, 5). -/
def Obligations.StepRunsTheDecodedInstruction : Prop :=
  ∀ (s : State) (e : Encoded) (i : Instr), decode e = .ok i → i.wellFormed = true →
    (s.platform = [] ∨ s.platform.head? = some .pass → engineReady s = false →
      s.host.prog[s.host.pos]? = some (.send e) →
      step s =
        match exec i { s with delay := s.delay - 1, platform := s.platform.tail } with
        | .next t => .next { t with host := { t.host with pos := t.host.pos + 1 } }
        | .fault r => .fault r
        | .refused r => .refused r) ∧
    (s.platform.head? = some (.access e) →
      step s = exec i { s with delay := s.delay - 1, platform := s.platform.tail })

/-- R90: a host `WR` or `WRV` line is its bus write and a `RD` line its bus read into the variable, each one step, and a
host-local line reaches the engine as nothing. -/
def Obligations.HostLinesAreBusOperations : Prop :=
  ∀ (s : State) (r : RegName), s.platform = [] → engineReady s = false →
    (∀ imm, s.host.prog[s.host.pos]? = some (.wr r imm) → ∃ i t, decode (.busop (1#1 ++ r.index) imm) = .ok i ∧
      exec i { s with delay := s.delay - 1 } = .next t ∧
      step s = .next { t with host := { t.host with pos := t.host.pos + 1 } }) ∧
    (∀ k, s.host.prog[s.host.pos]? = some (.wrv r k) → ∃ i t,
      decode (.busop (1#1 ++ r.index) s.host.vars[k.val]) = .ok i ∧ exec i { s with delay := s.delay - 1 } = .next t ∧
      step s = .next { t with host := { t.host with pos := t.host.pos + 1 } }) ∧
    (∀ k, s.host.prog[s.host.pos]? = some (.rd k r) → ∃ i t, decode (.busop (0#1 ++ r.index) 0#32) = .ok i ∧
      exec i { s with delay := s.delay - 1 } = .next t ∧
      step s = .next { t with host := { t.host with vars := t.host.vars.set k.val t.rdata, pos := t.host.pos + 1 } }) ∧
    (∀ l t, s.host.prog[s.host.pos]? = some l → isHostLocal l = true → step s = .next t →
      t = { s with delay := s.delay - 1, host := t.host })

/-- R88: what the host-local lines do to the variables and to the place in the program. -/
def Obligations.HostLocalLines : Prop :=
  ∀ (s : State) (k j : VarName) (imm : Word) (target : Nat), s.platform = [] → engineReady s = false →
    (s.host.prog[s.host.pos]? = some (.li k imm) → step s = .next { s with
      delay := s.delay - 1, host := { s.host with vars := s.host.vars.set k.val imm, pos := s.host.pos + 1 } }) ∧
    (s.host.prog[s.host.pos]? = some (.addi k j imm) → step s = .next { s with
      delay := s.delay - 1
      host := { s.host with vars := s.host.vars.set k.val (s.host.vars[j.val] + imm), pos := s.host.pos + 1 } }) ∧
    (s.host.prog[s.host.pos]? = some (.andi k j imm) → step s = .next { s with
      delay := s.delay - 1
      host := { s.host with vars := s.host.vars.set k.val (s.host.vars[j.val] &&& imm), pos := s.host.pos + 1 } }) ∧
    (s.host.prog[s.host.pos]? = some (.bne k imm target) → target < s.host.prog.length → step s = .next { s with
      delay := s.delay - 1
      host := { s.host with pos := if s.host.vars[k.val] = imm then s.host.pos + 1 else target } }) ∧
    (s.host.prog[s.host.pos]? = some (.beq k imm target) → target < s.host.prog.length → step s = .next { s with
      delay := s.delay - 1
      host := { s.host with pos := if s.host.vars[k.val] = imm then target else s.host.pos + 1 } }) ∧
    (s.host.prog[s.host.pos]? = some .halt → step s = .next { s with delay := s.delay - 1 })

/-- R148: with the platform quiet, the engine's step is taken exactly when a command is pending, `rst_n` is high and the
command's delay, free, has run out (log entry 2). It applies the command and empties PEND at once: H, BUF, CNT, BITLEN
and PHASE apart, nothing else changes. Any other such step leaves H, BUF, CNT, BITLEN and PHASE, and a pending command
pending. -/
def Obligations.EngineStepIsTheCompletion : Prop :=
  ∀ s : State, s.platform = [] →
    (s.rstN = true ∧ s.busy = true ∧ s.delay = 0 →
      ∃ t, step s = .next t ∧ t = complete s ∧ t.busy = false ∧
        t = { s with hash := t.hash, phase := t.phase, pend := none }) ∧
    (¬(s.rstN = true ∧ s.busy = true ∧ s.delay = 0) →
      ∀ t, step s = .next t → t.hash = s.hash ∧ t.phase = s.phase ∧ (s.busy = true → t.pend = s.pend))

/-- R148: the result of a pending command does not depend on when it completes: whatever access comes before the
completion, H, BUF, CNT, BITLEN and PHASE after it are those of completing at once, and PEND is the same command. -/
def Obligations.ResultDoesNotDependOnTheDelay : Prop :=
  ∀ (i : Instr) (s t : State), s.busy = true → exec i s = .next t →
    t.pend = s.pend ∧ t.hash = s.hash ∧ t.phase = s.phase ∧
      (complete t).hash = (complete s).hash ∧ (complete t).phase = (complete s).phase

/-- R67, R148: both orders of a completion and a host access are admitted: the same pending command with its delay run
out completes first, and with a delay left lets the access go first, which still finds BUSY = 1 (log entry 14). -/
def Obligations.BothOrdersAreAdmitted : Prop :=
  ∀ (s : State) (p : Pending) (v : Word) (d : Nat), s.platform = [] → s.rstN = true → s.pend = some p →
    s.host.prog[s.host.pos]? = some (.send (.busop 0x11#5 v)) →
    step { s with delay := 0 } = .next (complete { s with delay := 0 }) ∧
    ∃ t, step { s with delay := d + 1 } = .next t ∧ t.pend = some p ∧ t.delay = d ∧ t.hash = s.hash ∧ t.phase = s.phase ∧
      t.err = { s.err with busy := true }

/-- R221: a pending command completes after finitely many steps unless a reset intervenes: with the platform quiet and a
well-formed host program, after the delay's number of steps and one more, whatever the host does meanwhile. -/
def Obligations.EveryPendingCommandCompletes : Prop :=
  ∀ s : State, s.rstN = true → s.busy = true → s.platform = [] → programWellFormed s.host.prog = true →
    ∃ t, Host.Core.run Sys2Proof.core (s.delay + 1) s = .next t ∧ t.busy = false ∧ t.hash = (complete s).hash ∧
      t.phase = (complete s).phase

/-- R30: the invariants hold right after reset. -/
def Obligations.InvariantHoldsAtReset : Prop := Inv State.reset

/-- R30: every step of every agent keeps the invariants, from every state that has them. -/
def Obligations.EveryStepKeepsTheInvariant : Prop :=
  ∀ s t : State, Inv s → step s = .next t → Inv t

/-- R10: in a state with the invariants a completion never wraps BITLEN: ABSORB adds exactly 8 for each byte. -/
def Obligations.BitlenNeverWraps : Prop :=
  ∀ (s : State) (p : Pending), Inv s → s.pend = some p → p.op = .absorb →
    (complete s).hash.bitlen.toNat = s.hash.bitlen.toNat + 8 * p.n

/-- R51, R52, 93 I1 and I2: a raw host access (`load`, `store`) outside the window, or to the window but no aligned word,
is refused by name, whatever the state, when the host moves (log entry 13). One to an aligned word of the window is the
bus read or the bus write of the word index `off[5:2]`, `off` being its address less BASE. -/
def Obligations.RawAccessesAreWordAccessesOrRefused : Prop :=
  ∀ (s : State) (k : VarName) (addr : Nat) (size : AccessSize) (v : Word), s.platform = [] → engineReady s = false →
    let idx : BitVec 4 := BitVec.ofNat 4 ((addr - Config.base) / 4)
    (s.host.prog[s.host.pos]? = some (.load k addr size) →
      ((addr < Config.base ∨ Config.base + 64 ≤ addr) → step s = .refused (.outsideWindow addr)) ∧
      (Config.base ≤ addr ∧ addr < Config.base + 64 → size ≠ .word ∨ addr % 4 ≠ 0 →
        step s = .refused (.notAlignedWord addr size)) ∧
      (Config.base ≤ addr ∧ addr < Config.base + 64 → size = .word ∧ addr % 4 = 0 →
        ∃ i t, decode (.busop (0#1 ++ idx) 0#32) = .ok i ∧ exec i { s with delay := s.delay - 1 } = .next t ∧
          step s = .next { t with host := { t.host with vars := t.host.vars.set k.val t.rdata, pos := t.host.pos + 1 } })) ∧
    (s.host.prog[s.host.pos]? = some (.store addr size v) →
      ((addr < Config.base ∨ Config.base + 64 ≤ addr) → step s = .refused (.outsideWindow addr)) ∧
      (Config.base ≤ addr ∧ addr < Config.base + 64 → size ≠ .word ∨ addr % 4 ≠ 0 →
        step s = .refused (.notAlignedWord addr size)) ∧
      (Config.base ≤ addr ∧ addr < Config.base + 64 → size = .word ∧ addr % 4 = 0 →
        ∃ i t, decode (.busop (1#1 ++ idx) v) = .ok i ∧ exec i { s with delay := s.delay - 1 } = .next t ∧
          step s = .next { t with host := { t.host with pos := t.host.pos + 1 } }))
end

