-- ==== Sys2Proof/Laws/Hash.lean ====
section
/-! SUPPORT. Small lemmas of the hash functions: rotations bit by bit, lengths of the schedule, what AbsorbByte and
Pad leave in each field, and how absorbing a byte sequence composes. -/

namespace Sys2Proof.Machine

@[simp] theorem be64_length (v : BitVec 64) : (be64 v).length = 8 := rfl

@[simp] theorem lanes_length (d : Word) : (lanes d).length = 4 := rfl

theorem absorbedBytes_length (n : Nat) (d : Word) (h : n ≤ 4) : (absorbedBytes n d).length = n := by
  simp [absorbedBytes, h]

theorem byteCount_le (nb : BitVec 2) : byteCount nb ≤ 4 := by
  have := nb.isLt
  simp only [byteCount]
  omega

theorem byteCount_pos (nb : BitVec 2) : 1 ≤ byteCount nb := by simp [byteCount]

@[simp] theorem zeroBlock_get (j : Nat) (h : j < 64) : zeroBlock[j] = 0#8 := by simp [zeroBlock]

/-! ### The buffer loops of Pad (R146). -/

theorem zeroFrom_get (b : Vector Byte 64) (lo hi j : Nat) (h : j < 64) :
    (zeroFrom b lo hi)[j] = if lo ≤ j ∧ j < hi then 0#8 else b[j] := by simp [zeroFrom]

theorem putLength_get (b : Vector Byte 64) (len : BitVec 64) (j : Nat) (h : j < 64) :
    (putLength b len)[j] = if 56 ≤ j then be64Byte len (j - 56) else b[j] := by simp [putLength]

theorem blockAt_get (m : List Byte) (k j : Nat) (h : j < 64) : (blockAt m k)[j] = m.getD (64 * k + j) 0#8 := by
  simp [blockAt]

/-! ### The message schedule (R111, R112). -/

@[simp] theorem messageWords_length (b : Vector Byte 64) : (messageWords b).length = 16 := by simp [messageWords]

theorem expandSchedule_length (k : Nat) (w : List Word) : (expandSchedule k w).length = w.length + k := by
  induction k generalizing w with
  | zero => rfl
  | succ k ih => rw [expandSchedule, ih]; simp; omega

theorem expandSchedule_prefix (k : Nat) (w : List Word) : w <+: expandSchedule k w := by
  induction k generalizing w with
  | zero => exact List.prefix_refl w
  | succ k ih => exact (List.prefix_append w _).trans (ih _)

/-! ### AbsorbByte (R144). -/

theorem absorbByte_of_room {x : HashState} (b : Byte) (h : x.cnt.toNat < 63) :
    absorbByte x b =
      { h := x.h, buf := x.buf.set x.cnt.toNat b x.cnt.isLt, cnt := x.cnt + 1#6, bitlen := x.bitlen + 8#64 } := by
  have h1 : (x.cnt.setWidth 7 + 1#7) ≠ 64#7 := by
    intro hc
    have := congrArg BitVec.toNat hc
    simp only [BitVec.toNat_add, BitVec.toNat_setWidth, BitVec.toNat_ofNat] at this
    omega
  have h2 : (x.cnt.setWidth 7 + 1#7).setWidth 6 = x.cnt + 1#6 := by
    apply BitVec.eq_of_toNat_eq
    simp only [BitVec.toNat_add, BitVec.toNat_setWidth, BitVec.toNat_ofNat]
    omega
  simp [absorbByte, h1, h2]

theorem absorbByte_of_full {x : HashState} (b : Byte) (h : x.cnt.toNat = 63) :
    absorbByte x b =
      { h := compress x.h (x.buf.set x.cnt.toNat b x.cnt.isLt), buf := zeroBlock, cnt := 0#6,
        bitlen := x.bitlen + 8#64 } := by
  have h1 : (x.cnt.setWidth 7 + 1#7) = 64#7 := by
    apply BitVec.eq_of_toNat_eq
    simp only [BitVec.toNat_add, BitVec.toNat_setWidth, BitVec.toNat_ofNat]
    omega
  simp [absorbByte, h1]

@[simp] theorem absorbByte_bitlen (x : HashState) (b : Byte) : (absorbByte x b).bitlen = x.bitlen + 8#64 := by
  simp only [absorbByte]
  split <;> rfl

theorem absorbByte_cnt (x : HashState) (b : Byte) : (absorbByte x b).cnt.toNat = (x.cnt.toNat + 1) % 64 := by
  have := x.cnt.isLt
  by_cases h : x.cnt.toNat = 63
  · rw [absorbByte_of_full b h]
    simp [h]
  · rw [absorbByte_of_room b (by omega)]
    simp only [BitVec.toNat_add, BitVec.toNat_ofNat]

@[simp] theorem absorbBytes_nil (x : HashState) : absorbBytes x [] = x := rfl

@[simp] theorem absorbBytes_cons (x : HashState) (b : Byte) (bs : List Byte) :
    absorbBytes x (b :: bs) = absorbBytes (absorbByte x b) bs := rfl

theorem absorbBytes_append (x : HashState) (bs cs : List Byte) :
    absorbBytes x (bs ++ cs) = absorbBytes (absorbBytes x bs) cs := List.foldl_append

theorem absorbBytes_cnt (x : HashState) (bs : List Byte) :
    (absorbBytes x bs).cnt.toNat = (x.cnt.toNat + bs.length) % 64 := by
  induction bs generalizing x with
  | nil => have := x.cnt.isLt; simp; omega
  | cons b bs ih => rw [absorbBytes_cons, ih, absorbByte_cnt]; simp; omega

theorem absorbBytes_bitlen (x : HashState) (bs : List Byte) :
    (absorbBytes x bs).bitlen = x.bitlen + BitVec.ofNat 64 (8 * bs.length) := by
  induction bs generalizing x with
  | nil => simp
  | cons b bs ih =>
    rw [absorbBytes_cons, ih, absorbByte_bitlen]
    apply BitVec.eq_of_toNat_eq
    simp only [BitVec.toNat_add, BitVec.toNat_ofNat, List.length_cons]
    omega

/-! ### Pad (R146). -/

@[simp] theorem pad_cnt (x : HashState) : (pad x).cnt = 0#6 := by
  simp only [pad]
  split <;> rfl

@[simp] theorem pad_buf (x : HashState) : (pad x).buf = zeroBlock := by
  simp only [pad]
  split <;> rfl

@[simp] theorem pad_bitlen (x : HashState) : (pad x).bitlen = x.bitlen := by
  simp only [pad]
  split <;> rfl

/-! ### The completion step (R148). -/

@[simp] theorem complete_of_none {s : State} (h : s.pend = none) : complete s = s := by simp [complete, h]

@[simp] theorem complete_pend (s : State) : (complete s).pend = none := by
  unfold complete
  split
  · assumption
  · split <;> rfl

/-- A completion writes the hash state, PHASE and PEND and nothing else. -/
theorem complete_frame (s : State) :
    complete s = { s with hash := (complete s).hash, phase := (complete s).phase, pend := none } := by
  unfold complete
  split
  · rename_i h; rw [← h]
  · split <;> rfl

end Sys2Proof.Machine
end

