-- ==== Sys2Proof/Laws/State.lean ====
section
/-! SUPPORT. What each update of State leaves in each field: one lemma per field and update, by rfl. -/

namespace Sys2Proof.Machine

@[simp] theorem raise_hash (e : ErrorKind) (s : State) : (raise e s).hash = s.hash := rfl
@[simp] theorem raise_phase (e : ErrorKind) (s : State) : (raise e s).phase = s.phase := rfl
@[simp] theorem raise_pend (e : ErrorKind) (s : State) : (raise e s).pend = s.pend := rfl
@[simp] theorem raise_din (e : ErrorKind) (s : State) : (raise e s).din = s.din := rfl
@[simp] theorem raise_err (e : ErrorKind) (s : State) : (raise e s).err = setError e s.err := rfl
@[simp] theorem raise_rstN (e : ErrorKind) (s : State) : (raise e s).rstN = s.rstN := rfl
@[simp] theorem raise_rdata (e : ErrorKind) (s : State) : (raise e s).rdata = s.rdata := rfl
@[simp] theorem raise_delay (e : ErrorKind) (s : State) : (raise e s).delay = s.delay := rfl
@[simp] theorem raise_issues (e : ErrorKind) (s : State) : (raise e s).issues = s.issues := rfl
@[simp] theorem raise_latencies (e : ErrorKind) (s : State) : (raise e s).latencies = s.latencies := rfl
@[simp] theorem raise_platform (e : ErrorKind) (s : State) : (raise e s).platform = s.platform := rfl
@[simp] theorem raise_host (e : ErrorKind) (s : State) : (raise e s).host = s.host := rfl

@[simp] theorem latch_hash (op : Op) (n : Nat) (s : State) : (latch op n s).hash = s.hash := rfl
@[simp] theorem latch_phase (op : Op) (n : Nat) (s : State) : (latch op n s).phase = s.phase := rfl
@[simp] theorem latch_pend (op : Op) (n : Nat) (s : State) : (latch op n s).pend = some { op := op, n := n, data := s.din } := rfl
@[simp] theorem latch_din (op : Op) (n : Nat) (s : State) : (latch op n s).din = s.din := rfl
@[simp] theorem latch_err (op : Op) (n : Nat) (s : State) : (latch op n s).err = s.err := rfl
@[simp] theorem latch_rstN (op : Op) (n : Nat) (s : State) : (latch op n s).rstN = s.rstN := rfl
@[simp] theorem latch_rdata (op : Op) (n : Nat) (s : State) : (latch op n s).rdata = s.rdata := rfl
@[simp] theorem latch_delay (op : Op) (n : Nat) (s : State) : (latch op n s).delay = nextLatency s := rfl
@[simp] theorem latch_issues (op : Op) (n : Nat) (s : State) : (latch op n s).issues = s.issues + 1 := rfl
@[simp] theorem latch_latencies (op : Op) (n : Nat) (s : State) : (latch op n s).latencies = s.latencies.tail := rfl
@[simp] theorem latch_platform (op : Op) (n : Nat) (s : State) : (latch op n s).platform = s.platform := rfl
@[simp] theorem latch_host (op : Op) (n : Nat) (s : State) : (latch op n s).host = s.host := rfl

@[simp] theorem clearErrors_hash (v : Word) (s : State) : (clearErrors v s).hash = s.hash := rfl
@[simp] theorem clearErrors_phase (v : Word) (s : State) : (clearErrors v s).phase = s.phase := rfl
@[simp] theorem clearErrors_pend (v : Word) (s : State) : (clearErrors v s).pend = s.pend := rfl
@[simp] theorem clearErrors_din (v : Word) (s : State) : (clearErrors v s).din = s.din := rfl
@[simp] theorem clearErrors_rstN (v : Word) (s : State) : (clearErrors v s).rstN = s.rstN := rfl
@[simp] theorem clearErrors_rdata (v : Word) (s : State) : (clearErrors v s).rdata = s.rdata := rfl
@[simp] theorem clearErrors_delay (v : Word) (s : State) : (clearErrors v s).delay = s.delay := rfl
@[simp] theorem clearErrors_issues (v : Word) (s : State) : (clearErrors v s).issues = s.issues := rfl
@[simp] theorem clearErrors_latencies (v : Word) (s : State) : (clearErrors v s).latencies = s.latencies := rfl
@[simp] theorem clearErrors_platform (v : Word) (s : State) : (clearErrors v s).platform = s.platform := rfl
@[simp] theorem clearErrors_host (v : Word) (s : State) : (clearErrors v s).host = s.host := rfl

@[simp] theorem resetEngine_hash (s : State) : (resetEngine s).hash = HashState.zero := rfl
@[simp] theorem resetEngine_phase (s : State) : (resetEngine s).phase = .idle := rfl
@[simp] theorem resetEngine_pend (s : State) : (resetEngine s).pend = none := rfl
@[simp] theorem resetEngine_din (s : State) : (resetEngine s).din = 0#32 := rfl
@[simp] theorem resetEngine_err (s : State) : (resetEngine s).err = Errors.none := rfl
@[simp] theorem resetEngine_rstN (s : State) : (resetEngine s).rstN = s.rstN := rfl
@[simp] theorem resetEngine_rdata (s : State) : (resetEngine s).rdata = 0#32 := rfl
@[simp] theorem resetEngine_delay (s : State) : (resetEngine s).delay = 0 := rfl
@[simp] theorem resetEngine_issues (s : State) : (resetEngine s).issues = s.issues := rfl
@[simp] theorem resetEngine_latencies (s : State) : (resetEngine s).latencies = s.latencies := rfl
@[simp] theorem resetEngine_platform (s : State) : (resetEngine s).platform = s.platform := rfl
@[simp] theorem resetEngine_host (s : State) : (resetEngine s).host = s.host := rfl

@[simp] theorem completeInit_hash (s : State) : (completeInit s).hash = initHash := rfl
@[simp] theorem completeInit_phase (s : State) : (completeInit s).phase = .active := rfl
@[simp] theorem completeInit_pend (s : State) : (completeInit s).pend = s.pend := rfl
@[simp] theorem completeInit_din (s : State) : (completeInit s).din = s.din := rfl
@[simp] theorem completeInit_err (s : State) : (completeInit s).err = s.err := rfl
@[simp] theorem completeInit_rstN (s : State) : (completeInit s).rstN = s.rstN := rfl
@[simp] theorem completeInit_rdata (s : State) : (completeInit s).rdata = s.rdata := rfl
@[simp] theorem completeInit_delay (s : State) : (completeInit s).delay = s.delay := rfl
@[simp] theorem completeInit_issues (s : State) : (completeInit s).issues = s.issues := rfl
@[simp] theorem completeInit_latencies (s : State) : (completeInit s).latencies = s.latencies := rfl
@[simp] theorem completeInit_platform (s : State) : (completeInit s).platform = s.platform := rfl
@[simp] theorem completeInit_host (s : State) : (completeInit s).host = s.host := rfl

@[simp] theorem completeAbsorb_hash (n : Nat) (d : Word) (s : State) : (completeAbsorb n d s).hash = absorbBytes s.hash (absorbedBytes n d) := rfl
@[simp] theorem completeAbsorb_phase (n : Nat) (d : Word) (s : State) : (completeAbsorb n d s).phase = s.phase := rfl
@[simp] theorem completeAbsorb_pend (n : Nat) (d : Word) (s : State) : (completeAbsorb n d s).pend = s.pend := rfl
@[simp] theorem completeAbsorb_din (n : Nat) (d : Word) (s : State) : (completeAbsorb n d s).din = s.din := rfl
@[simp] theorem completeAbsorb_err (n : Nat) (d : Word) (s : State) : (completeAbsorb n d s).err = s.err := rfl
@[simp] theorem completeAbsorb_rstN (n : Nat) (d : Word) (s : State) : (completeAbsorb n d s).rstN = s.rstN := rfl
@[simp] theorem completeAbsorb_rdata (n : Nat) (d : Word) (s : State) : (completeAbsorb n d s).rdata = s.rdata := rfl
@[simp] theorem completeAbsorb_delay (n : Nat) (d : Word) (s : State) : (completeAbsorb n d s).delay = s.delay := rfl
@[simp] theorem completeAbsorb_issues (n : Nat) (d : Word) (s : State) : (completeAbsorb n d s).issues = s.issues := rfl
@[simp] theorem completeAbsorb_latencies (n : Nat) (d : Word) (s : State) : (completeAbsorb n d s).latencies = s.latencies := rfl
@[simp] theorem completeAbsorb_platform (n : Nat) (d : Word) (s : State) : (completeAbsorb n d s).platform = s.platform := rfl
@[simp] theorem completeAbsorb_host (n : Nat) (d : Word) (s : State) : (completeAbsorb n d s).host = s.host := rfl

@[simp] theorem completeFinal_hash (s : State) : (completeFinal s).hash = pad s.hash := rfl
@[simp] theorem completeFinal_phase (s : State) : (completeFinal s).phase = .done := rfl
@[simp] theorem completeFinal_pend (s : State) : (completeFinal s).pend = s.pend := rfl
@[simp] theorem completeFinal_din (s : State) : (completeFinal s).din = s.din := rfl
@[simp] theorem completeFinal_err (s : State) : (completeFinal s).err = s.err := rfl
@[simp] theorem completeFinal_rstN (s : State) : (completeFinal s).rstN = s.rstN := rfl
@[simp] theorem completeFinal_rdata (s : State) : (completeFinal s).rdata = s.rdata := rfl
@[simp] theorem completeFinal_delay (s : State) : (completeFinal s).delay = s.delay := rfl
@[simp] theorem completeFinal_issues (s : State) : (completeFinal s).issues = s.issues := rfl
@[simp] theorem completeFinal_latencies (s : State) : (completeFinal s).latencies = s.latencies := rfl
@[simp] theorem completeFinal_platform (s : State) : (completeFinal s).platform = s.platform := rfl
@[simp] theorem completeFinal_host (s : State) : (completeFinal s).host = s.host := rfl

@[simp] theorem elapse_hash (s : State) : (elapse s).hash = s.hash := rfl
@[simp] theorem elapse_phase (s : State) : (elapse s).phase = s.phase := rfl
@[simp] theorem elapse_pend (s : State) : (elapse s).pend = s.pend := rfl
@[simp] theorem elapse_din (s : State) : (elapse s).din = s.din := rfl
@[simp] theorem elapse_err (s : State) : (elapse s).err = s.err := rfl
@[simp] theorem elapse_rstN (s : State) : (elapse s).rstN = s.rstN := rfl
@[simp] theorem elapse_rdata (s : State) : (elapse s).rdata = s.rdata := rfl
@[simp] theorem elapse_delay (s : State) : (elapse s).delay = s.delay - 1 := rfl
@[simp] theorem elapse_issues (s : State) : (elapse s).issues = s.issues := rfl
@[simp] theorem elapse_latencies (s : State) : (elapse s).latencies = s.latencies := rfl
@[simp] theorem elapse_platform (s : State) : (elapse s).platform = s.platform := rfl
@[simp] theorem elapse_host (s : State) : (elapse s).host = s.host := rfl

@[simp] theorem nextLine_hash (s : State) : (nextLine s).hash = s.hash := rfl
@[simp] theorem nextLine_phase (s : State) : (nextLine s).phase = s.phase := rfl
@[simp] theorem nextLine_pend (s : State) : (nextLine s).pend = s.pend := rfl
@[simp] theorem nextLine_din (s : State) : (nextLine s).din = s.din := rfl
@[simp] theorem nextLine_err (s : State) : (nextLine s).err = s.err := rfl
@[simp] theorem nextLine_rstN (s : State) : (nextLine s).rstN = s.rstN := rfl
@[simp] theorem nextLine_rdata (s : State) : (nextLine s).rdata = s.rdata := rfl
@[simp] theorem nextLine_delay (s : State) : (nextLine s).delay = s.delay := rfl
@[simp] theorem nextLine_issues (s : State) : (nextLine s).issues = s.issues := rfl
@[simp] theorem nextLine_latencies (s : State) : (nextLine s).latencies = s.latencies := rfl
@[simp] theorem nextLine_platform (s : State) : (nextLine s).platform = s.platform := rfl
@[simp] theorem nextLine_host (s : State) : (nextLine s).host = { s.host with pos := s.host.pos + 1 } := rfl

@[simp] theorem setHostVar_hash (k : VarName) (v : Word) (s : State) : (setHostVar k v s).hash = s.hash := rfl
@[simp] theorem setHostVar_phase (k : VarName) (v : Word) (s : State) : (setHostVar k v s).phase = s.phase := rfl
@[simp] theorem setHostVar_pend (k : VarName) (v : Word) (s : State) : (setHostVar k v s).pend = s.pend := rfl
@[simp] theorem setHostVar_din (k : VarName) (v : Word) (s : State) : (setHostVar k v s).din = s.din := rfl
@[simp] theorem setHostVar_err (k : VarName) (v : Word) (s : State) : (setHostVar k v s).err = s.err := rfl
@[simp] theorem setHostVar_rstN (k : VarName) (v : Word) (s : State) : (setHostVar k v s).rstN = s.rstN := rfl
@[simp] theorem setHostVar_rdata (k : VarName) (v : Word) (s : State) : (setHostVar k v s).rdata = s.rdata := rfl
@[simp] theorem setHostVar_delay (k : VarName) (v : Word) (s : State) : (setHostVar k v s).delay = s.delay := rfl
@[simp] theorem setHostVar_issues (k : VarName) (v : Word) (s : State) : (setHostVar k v s).issues = s.issues := rfl
@[simp] theorem setHostVar_latencies (k : VarName) (v : Word) (s : State) : (setHostVar k v s).latencies = s.latencies := rfl
@[simp] theorem setHostVar_platform (k : VarName) (v : Word) (s : State) : (setHostVar k v s).platform = s.platform := rfl
@[simp] theorem setHostVar_host (k : VarName) (v : Word) (s : State) : (setHostVar k v s).host = { s.host with vars := s.host.vars.set k.val v } := rfl

@[simp] theorem clearErrors_err_seq (v : Word) (s : State) : (clearErrors v s).err.seq = (s.err.seq && !v.getLsbD 3) := rfl
@[simp] theorem clearErrors_err_cmd (v : Word) (s : State) : (clearErrors v s).err.cmd = (s.err.cmd && !v.getLsbD 4) := rfl
@[simp] theorem clearErrors_err_busy (v : Word) (s : State) : (clearErrors v s).err.busy = (s.err.busy && !v.getLsbD 5) := rfl
@[simp] theorem clearErrors_err_len (v : Word) (s : State) : (clearErrors v s).err.len = (s.err.len && !v.getLsbD 6) := rfl

@[simp] theorem busy_of_none (s : State) (h : s.pend = none) : s.busy = false := by simp [State.busy, h]
@[simp] theorem busy_of_some (s : State) (p : Pending) (h : s.pend = some p) : s.busy = true := by simp [State.busy, h]
theorem pend_none_of_not_busy (s : State) (h : s.busy = false) : s.pend = none := by simpa [State.busy] using h
theorem pend_some_of_busy (s : State) (h : s.busy = true) : ∃ p, s.pend = some p := Option.isSome_iff_exists.mp h

end Sys2Proof.Machine
end

