-- ==== Sys2Proof/Laws/Ops.lean ====
section
/-! SUPPORT. What each shared operation can do, said once: the two access shapes, issue, `exec`, an encoded access, a
host line, and the step. Proofs cite these and do not unfold the operations. -/

namespace Sys2Proof.Machine

@[simp] theorem readAccess_next (v : Word) (s : State) :
    readAccess v s = .next { s with rdata := if s.rstN then v else 0#32 } := rfl

theorem writeAccess_of_reset (f : State → State) (s : State) (h : s.rstN = false) : writeAccess f s = .next s := by
  simp [writeAccess, h]

theorem writeAccess_of_running (f : State → State) (s : State) (h : s.rstN = true) : writeAccess f s = .next (f s) := by
  simp [writeAccess, h]

@[simp] theorem onNext_next (s : State) (f : State → State) : onNext (.next s) f = .next (f s) := rfl
@[simp] theorem onNext_fault (r : Fault) (f : State → State) : onNext (.fault r) f = .fault r := rfl
@[simp] theorem onNext_refused (r : Refusal) (f : State → State) : onNext (.refused r) f = .refused r := rfl

theorem onNext_eq_next {o : Result} {f : State → State} {t : State} (h : onNext o f = .next t) :
    ∃ u, o = .next u ∧ t = f u := by
  cases o with
  | next u => exact ⟨u, rfl, by simpa using h.symm⟩
  | fault r => simp at h
  | refused r => simp at h

/-- Issuing a decoded command does nothing, raises one error, or latches the command with every check passed (R140). -/
theorem issueCommand_cases (c : Command) (s : State) :
    issueCommand c s = s ∨ (∃ e, issueCommand c s = raise e s) ∨
      (∃ op n, s.busy = false ∧ issueCommand c s = latch op n s ∧
        pendingFits op n s) := by
  unfold issueCommand
  split
  · exact .inr (.inl ⟨_, rfl⟩)
  · rename_i hb
    have hb : s.busy = false := by simpa using hb
    cases c with
    | nop => exact .inl rfl
    | init => exact .inr (.inr ⟨.init, 1, hb, rfl, rfl⟩)
    | absorb nb =>
      dsimp only
      split
      · exact .inr (.inl ⟨_, rfl⟩)
      · split
        · exact .inr (.inl ⟨_, rfl⟩)
        · rename_i hp hl
          refine .inr (.inr ⟨.absorb, byteCount nb, hb, rfl, ?_⟩)
          have := nb.isLt
          refine ⟨by simpa using hp, by simp [byteCount], by simp only [byteCount]; omega, ?_⟩
          simpa [tooLong] using hl
    | final =>
      dsimp only
      split
      · exact .inr (.inl ⟨_, rfl⟩)
      · rename_i hp
        exact .inr (.inr ⟨.final, 1, hb, rfl, rfl, by simpa using hp⟩)

/-- The same for a command word (R140). -/
theorem issue_cases (v : Word) (s : State) :
    issue v s = s ∨ (∃ e, issue v s = raise e s) ∨
      (∃ op n, s.busy = false ∧ issue v s = latch op n s ∧ pendingFits op n s) := by
  unfold issue
  split
  · exact .inr (.inl ⟨_, rfl⟩)
  · split
    · exact .inr (.inl ⟨_, rfl⟩)
    · exact issueCommand_cases _ s

/-- Everything one instruction can do to the state. -/
inductive Effect (s : State) : State → Prop where
  /-- A read, an ignored write, NOP, or any write in reset. -/
  | read (v : Word) : Effect s { s with rdata := v }
  | unchanged : Effect s s
  | raised (e : ErrorKind) (h : s.rstN = true) : Effect s (raise e s)
  | latched (op : Op) (n : Nat) (hr : s.rstN = true) (hb : s.busy = false) (hf : pendingFits op n s) :
      Effect s (latch op n s)
  | cleared (v : Word) (h : s.rstN = true) : Effect s (clearErrors v s)
  | dinWritten (v : Word) (h : s.rstN = true) : Effect s { s with din := v }

theorem effect_of_issueCommand (c : Command) (s : State) (h : s.rstN = true) : Effect s (issueCommand c s) := by
  rcases issueCommand_cases c s with h0 | ⟨e, h0⟩ | ⟨op, n, hb, h0, hf⟩ <;> rw [h0]
  · exact .unchanged
  · exact .raised e h
  · exact .latched op n h hb hf

theorem effect_of_issue (v : Word) (s : State) (h : s.rstN = true) : Effect s (issue v s) := by
  rcases issue_cases v s with h0 | ⟨e, h0⟩ | ⟨op, n, hb, h0, hf⟩ <;> rw [h0]
  · exact .unchanged
  · exact .raised e h
  · exact .latched op n h hb hf

theorem effect_of_write {f : State → State} {s t : State} (h : writeAccess f s = .next t)
    (hf : s.rstN = true → Effect s (f s)) : Effect s t := by
  cases hr : s.rstN with
  | false =>
    rw [writeAccess_of_reset f s hr] at h
    cases h
    exact .unchanged
  | true =>
    rw [writeAccess_of_running f s hr] at h
    cases h
    exact hf hr

theorem effect_of_read {v : Word} {s t : State} (h : readAccess v s = .next t) : Effect s t := by
  simp only [readAccess_next] at h
  cases h
  exact .read _

/-- The inversion lemma of `exec`: a next state is one of these. -/
theorem exec_effect {i : Instr} {s t : State} (h : exec i s = .next t) : Effect s t := by
  cases i with
  | nop => exact effect_of_write h (effect_of_issueCommand _ s)
  | init => exact effect_of_write h (effect_of_issueCommand _ s)
  | absorb nb => exact effect_of_write h (effect_of_issueCommand _ s)
  | final => exact effect_of_write h (effect_of_issueCommand _ s)
  | rdId => exact effect_of_read h
  | rdCmd => exact effect_of_read h
  | rdStatus => exact effect_of_read h
  | rdDin => exact effect_of_read h
  | rdBitlenLo => exact effect_of_read h
  | rdBitlenHi => exact effect_of_read h
  | rdRsvd low => exact effect_of_read h
  | rdDigest i => exact effect_of_read h
  | wrId v => exact effect_of_write (f := fun t => t) h fun _ => .unchanged
  | wrCmd v => exact effect_of_write h (effect_of_issue v s)
  | wrStatus v => exact effect_of_write h (.cleared v)
  | wrDin v => exact effect_of_write (f := fun t => { t with din := v }) h (.dinWritten v)
  | wrBitlen hi v => exact effect_of_write (f := fun t => t) h fun _ => .unchanged
  | wrRsvd low v => exact effect_of_write (f := fun t => t) h fun _ => .unchanged
  | wrDigest i v => exact effect_of_write (f := fun t => t) h fun _ => .unchanged

/-- Running an encoded object is running an instruction: a reserved word is run as its CMD write (R86). -/
theorem runAccess_eq_exec (e : Encoded) (s : State) : ∃ i, runAccess e s = exec i s := by
  unfold runAccess
  split
  · exact ⟨_, rfl⟩
  · exact ⟨_, rfl⟩

@[simp] theorem runAccess_of_decode {e : Encoded} {i : Instr} (h : decode e = .ok i) (s : State) :
    runAccess e s = exec i s := by
  simp [runAccess, h]

/-- What a host line can do: an instruction's effect or none, and then the host agent alone. -/
theorem hostLine_next {l : HostLine} {s t : State} (h : hostLine l s = .next t) :
    ∃ u, Effect s u ∧ t = { u with host := t.host } := by
  have hacc : ∀ {e : Encoded} {f : State → State}, (∀ u, f u = { u with host := (f u).host }) →
      onNext (runAccess e s) f = .next t → ∃ u, Effect s u ∧ t = { u with host := t.host } := by
    intro e f hf h
    obtain ⟨u, hu, rfl⟩ := onNext_eq_next h
    obtain ⟨i, hi⟩ := runAccess_eq_exec e s
    exact ⟨u, exec_effect (hi ▸ hu), hf u⟩
  have hgo : ∀ {target : Nat}, goToLine target s = .next t → ∃ u, Effect s u ∧ t = { u with host := t.host } := by
    intro target h
    unfold goToLine at h
    split at h
    · cases h; exact ⟨s, .unchanged, rfl⟩
    · cases h
  cases l with
  | wr r imm => exact hacc (fun _ => rfl) h
  | wrv r k => exact hacc (fun _ => rfl) h
  | rd k r => exact hacc (f := fun t => nextLine (setHostVar k t.rdata t)) (fun _ => rfl) h
  | li k imm => cases h; exact ⟨s, .unchanged, rfl⟩
  | addi k j imm => cases h; exact ⟨s, .unchanged, rfl⟩
  | andi k j imm => cases h; exact ⟨s, .unchanged, rfl⟩
  | bne k imm target =>
    simp only [hostLine] at h
    split at h
    · exact hgo h
    · cases h; exact ⟨s, .unchanged, rfl⟩
  | beq k imm target =>
    simp only [hostLine] at h
    split at h
    · exact hgo h
    · cases h; exact ⟨s, .unchanged, rfl⟩
  | halt => cases h; exact ⟨s, .unchanged, rfl⟩
  | send e => exact hacc (fun _ => rfl) h
  | load k addr size =>
    simp only [hostLine] at h
    split at h
    · exact hacc (f := fun t => nextLine (setHostVar k t.rdata t)) (fun _ => rfl) h
    · cases h
  | store addr size v =>
    simp only [hostLine] at h
    split at h
    · exact hacc (fun _ => rfl) h
    · cases h

theorem hostStep_next {s t : State} (h : hostStep s = .next t) : ∃ u, Effect s u ∧ t = { u with host := t.host } := by
  unfold hostStep at h
  split at h
  · cases h; exact ⟨s, .unchanged, rfl⟩
  · exact hostLine_next h

/-- A step with the platform quiet and the engine not due is the host's line, after one step of the delay. -/
theorem step_of_line {s : State} {l : HostLine} (hp : s.platform = []) (hr : engineReady s = false)
    (hl : s.host.prog[s.host.pos]? = some l) : step s = hostLine l (elapse s) := by
  have hl' : currentLine (elapse s) = some l := hl
  simp only [step, machineStep, hp, agentStep, hr, Bool.false_eq_true, if_false, hostStep, hl']

/-- The same with no line left: the step only lets time pass. -/
theorem step_of_idle {s : State} (hp : s.platform = []) (hr : engineReady s = false)
    (hl : s.host.prog[s.host.pos]? = none) : step s = .next (elapse s) := by
  have hl' : currentLine (elapse s) = none := hl
  simp only [step, machineStep, hp, agentStep, hr, Bool.false_eq_true, if_false, hostStep, hl']

/-- A step with the platform quiet and the engine due is the completion. -/
theorem step_of_due {s : State} (hp : s.platform = []) (hr : engineReady s = true) : step s = .next (complete s) := by
  simp only [step, machineStep, hp, agentStep, hr, if_true]

/-- A step with a level of the reset line next is that line's step. -/
theorem step_of_reset_line {s : State} {level : Bool} {rest : List PlatformEvent} (hp : s.platform = .rst level :: rest) :
    step s = .next (setResetLine level { s with platform := rest }) := by
  simp only [step, machineStep, hp]

/-- A step with another master's access next is that access, after one step of the delay. -/
theorem step_of_other_master {s : State} {e : Encoded} {rest : List PlatformEvent} (hp : s.platform = .access e :: rest) :
    step s = runAccess e (elapse { s with platform := rest }) := by
  simp only [step, machineStep, hp]

/-- A step with `pass` next is the step without it. -/
theorem step_of_pass {s : State} {rest : List PlatformEvent} (hp : s.platform = .pass :: rest) :
    step s = agentStep { s with platform := rest } := by
  simp only [step, machineStep, hp]

/-- A raw access outside the window is refused (93 I2). -/
theorem rawIndex_of_outside {addr : Nat} {size : AccessSize} (h : addr < Config.base ∨ Config.base + 64 ≤ addr) :
    rawIndex addr size = .error (.outsideWindow addr) := by
  unfold rawIndex Config.windowBytes
  rw [if_pos (by omega)]

/-- A raw access to the window that is no aligned word is refused (R52). -/
theorem rawIndex_of_notWord {addr : Nat} {size : AccessSize} (h : Config.base ≤ addr ∧ addr < Config.base + 64)
    (hw : size ≠ .word ∨ addr % 4 ≠ 0) : rawIndex addr size = .error (.notAlignedWord addr size) := by
  unfold rawIndex Config.windowBytes
  rw [if_neg (not_not.mpr h), if_pos hw]

/-- A raw access to an aligned word of the window is of its word index (R51). -/
theorem rawIndex_of_word {addr : Nat} (h : Config.base ≤ addr ∧ addr < Config.base + 64) (ha : addr % 4 = 0) :
    rawIndex addr .word = .ok (BitVec.ofNat 4 ((addr - Config.base) / 4)) := by
  unfold rawIndex Config.windowBytes
  rw [if_neg (not_not.mpr h), if_neg (by simp [ha])]

/-- The inversion lemma of `agentStep`: the engine completes a command whose delay has run out, or the host moves. -/
theorem agentStep_next {s t : State} (h : agentStep s = .next t) :
    (s.rstN = true ∧ s.busy = true ∧ s.delay = 0 ∧ t = complete s) ∨
      ∃ u, Effect (elapse s) u ∧ t = { u with host := t.host } := by
  unfold agentStep at h
  split at h
  · rename_i hr
    simp only [engineReady, Bool.and_eq_true, beq_iff_eq] at hr
    cases h
    exact .inl ⟨hr.1.1, hr.1.2, hr.2, rfl⟩
  · exact .inr (hostStep_next h)

/-- The inversion lemma of `step`: a step is the engine's, the host's, another master's, or the reset line's. -/
theorem step_next {s t : State} (h : step s = .next t) :
    ∃ rest, (s.rstN = true ∧ s.busy = true ∧ s.delay = 0 ∧ t = complete { s with platform := rest }) ∨
      (∃ u, Effect (elapse { s with platform := rest }) u ∧ t = { u with host := t.host }) ∨
      (∃ level, t = setResetLine level { s with platform := rest }) := by
  unfold step machineStep at h
  split at h
  · rename_i hp
    have hs : s = { s with platform := [] } := by rw [← hp]
    refine ⟨[], ?_⟩
    rw [← hs]
    rcases agentStep_next h with h | h
    · exact .inl h
    · exact .inr (.inl h)
  · rename_i rest _
    refine ⟨rest, ?_⟩
    rcases agentStep_next h with h | h
    · exact .inl h
    · exact .inr (.inl h)
  · rename_i level rest _
    cases h
    exact ⟨rest, .inr (.inr ⟨level, rfl⟩)⟩
  · rename_i e rest _
    obtain ⟨i, hi⟩ := runAccess_eq_exec e (elapse { s with platform := rest })
    refine ⟨rest, .inr (.inl ⟨t, exec_effect (hi ▸ h), rfl⟩)⟩

/-! ### Runs of the machine (`Host.Core.run`). -/

theorem run_succ_of_next (M : Host.Core) (k : Nat) (s t : M.State) (h : M.step s = .next t) :
    Host.Core.run M (k + 1) s = Host.Core.run M k t := by
  simp only [Host.Core.run, h]

theorem core_run_succ {k : Nat} {s t : State} (h : step s = .next t) :
    Host.Core.run Sys2Proof.core (k + 1) s = Host.Core.run Sys2Proof.core k t :=
  run_succ_of_next Sys2Proof.core k s t h

theorem core_run_zero (s : State) : Host.Core.run Sys2Proof.core 0 s = .next s := rfl

end Sys2Proof.Machine
end

