-- ==== Sys2Proof/Laws/PerInstr.lean ====
section
/-! SUPPORT. The family `Encoding`: the encoding of every instruction is a well-formed encoded object (a read carries
no data bits, 30_encoding.md R80). One lemma per constructor of `Instr`. -/

/-- The encoded form of `i` is well formed. -/
def Sys2Proof.Laws.Encoding.Statement (i : Sys2Proof.Instr) : Prop := (Sys2Proof.encode i).wellFormed = true

namespace Sys2Proof.Laws.Encoding

theorem encodeRead_wellFormed (idx : BitVec 4) : (encodeRead idx).wellFormed = true := by
  simp [encodeRead, Encoded.wellFormed]

theorem encodeWrite_wellFormed (idx : BitVec 4) (v : Word) : (encodeWrite idx v).wellFormed = true := by
  have h : (1#1 ++ idx).getLsbD 4 = true := by revert idx; decide
  simp only [encodeWrite, Encoded.wellFormed, h, Bool.true_or]

theorem nop : Statement .nop := rfl
theorem init : Statement .init := rfl
theorem absorb (nb : BitVec 2) : Statement (.absorb nb) := rfl
theorem final : Statement .final := rfl
theorem rdId : Statement .rdId := encodeRead_wellFormed _
theorem rdCmd : Statement .rdCmd := encodeRead_wellFormed _
theorem rdStatus : Statement .rdStatus := encodeRead_wellFormed _
theorem rdDin : Statement .rdDin := encodeRead_wellFormed _
theorem rdBitlenLo : Statement .rdBitlenLo := encodeRead_wellFormed _
theorem rdBitlenHi : Statement .rdBitlenHi := encodeRead_wellFormed _
theorem rdRsvd (low : BitVec 1) : Statement (.rdRsvd low) := encodeRead_wellFormed _
theorem rdDigest (i : BitVec 3) : Statement (.rdDigest i) := encodeRead_wellFormed _
theorem wrId (v : Word) : Statement (.wrId v) := encodeWrite_wellFormed _ v
theorem wrCmd (v : Word) : Statement (.wrCmd v) := encodeWrite_wellFormed _ v
theorem wrStatus (v : Word) : Statement (.wrStatus v) := encodeWrite_wellFormed _ v
theorem wrDin (v : Word) : Statement (.wrDin v) := encodeWrite_wellFormed _ v
theorem wrBitlen (hi : BitVec 1) (v : Word) : Statement (.wrBitlen hi v) := encodeWrite_wellFormed _ v
theorem wrRsvd (low : BitVec 1) (v : Word) : Statement (.wrRsvd low v) := encodeWrite_wellFormed _ v
theorem wrDigest (i : BitVec 3) (v : Word) : Statement (.wrDigest i v) := encodeWrite_wellFormed _ v

end Sys2Proof.Laws.Encoding
end

