-- ==== Sys2Proof/Tests/Slice0.lean ====
section
/-! SUPPORT. Tests. Every expected value is the spec's: 30_encoding.md's words, the examples of the rules, and the
vectors V1 to V14 of 95_test_vectors.md. The last part shows a witness for the hypotheses of each statement. -/

namespace Sys2Proof.Tests

open Sys2Proof Sys2Proof.Machine

/-! ## Small states -/

/-- The state after `i`, or `s` if it stops. -/
def after (i : Instr) (s : State) : State :=
  match exec i s with
  | .next t => t
  | .fault _ => s
  | .refused _ => s

/-- ACTIVE with nothing absorbed: right after INIT completes (R142). -/
def active : State := { State.reset with hash := initHash, phase := .active }

/-- ACTIVE with `cnt` bytes 0x41 buffered, a first block not yet full. -/
def activeWith (cnt : Nat) : State :=
  { active with
    hash := { initHash with
      buf := Vector.ofFn fun j => if j.val < cnt then 0x41#8 else 0#8
      cnt := BitVec.ofNat 6 cnt
      bitlen := BitVec.ofNat 64 (8 * cnt) } }

/-- The digest words of "abc" (X2). -/
def abcDigest : Vector Word 8 :=
  #v[0xBA7816BF#32, 0x8F01CFEA#32, 0x414140DE#32, 0x5DAE2223#32, 0xB00361A3#32, 0x96177A9C#32, 0xB410FF61#32, 0xF20015AD#32]

/-- "abc-done" of V8: DONE after hashing "abc". -/
def abcDone : State :=
  { State.reset with
    hash := { h := abcDigest, buf := zeroBlock, cnt := 0#6, bitlen := 0x18#64 }
    phase := .done
    din := 0x61626300#32 }

/-- INIT pending after reset (V9 rows ER10 to ER12). -/
def initPending : State := { State.reset with pend := some { op := .init, n := 1, data := 0#32 } }

/-- ACTIVE with the length limit near: BITLEN 0xFFFFFFFF_FFFFFFE0, CNT 60 (V11 LN1). -/
def nearLimit : State :=
  { active with hash := { initHash with cnt := 60#6, bitlen := 0xFFFFFFFFFFFFFFE0#64 } }

/-! ## Decoding: words written out from R82 and R83 -/

theorem test_decode_nop : decodeTableWord 32 0b00000000000000000000000000000000 = some .nop := by decide
theorem test_decode_init : decodeTableWord 32 0b00000000000000000000000000000001 = some .init := by decide
theorem test_decode_absorb_one : decodeTableWord 32 0b00000000000000000000000000000010 = some (.absorb 0) := by decide
theorem test_decode_absorb_four : decodeTableWord 32 0b00000000000000000000000000110010 = some (.absorb 3) := by decide
theorem test_decode_final : decodeTableWord 32 0b00000000000000000000000000000011 = some .final := by decide
theorem test_decode_rdId : decodeTableWord 8 0b00000 = some .rdId := by decide
theorem test_decode_rdCmd : decodeTableWord 8 0b00001 = some .rdCmd := by decide
theorem test_decode_rdStatus : decodeTableWord 8 0b00010 = some .rdStatus := by decide
theorem test_decode_rdDin : decodeTableWord 8 0b00011 = some .rdDin := by decide
theorem test_decode_rdBitlenLo : decodeTableWord 8 0b00100 = some .rdBitlenLo := by decide
theorem test_decode_rdBitlenHi : decodeTableWord 8 0b00101 = some .rdBitlenHi := by decide
theorem test_decode_rdRsvd : decodeTableWord 8 0b00110 = some (.rdRsvd 0) ∧ decodeTableWord 8 0b00111 = some (.rdRsvd 1) := by decide
theorem test_decode_rdDigest : decodeTableWord 8 0b01000 = some (.rdDigest 0) ∧ decodeTableWord 8 0b01101 = some (.rdDigest 5) := by decide
theorem test_decode_wrId : decodeTableWord 8 0b10000 = some (.wrId 0) := by decide
theorem test_decode_wrCmd : decodeTableWord 8 0b10001 = some (.wrCmd 0) := by decide
theorem test_decode_wrStatus : decodeTableWord 8 0b10010 = some (.wrStatus 0) := by decide
theorem test_decode_wrDin_data : decodeTableWord 40 0xDEADBEEF13 = some (.wrDin 0xDEADBEEF#32) := by decide
theorem test_decode_wrBitlen : decodeTableWord 8 0b10100 = some (.wrBitlen 0 0) ∧ decodeTableWord 8 0b10101 = some (.wrBitlen 1 0) := by decide
theorem test_decode_wrRsvd : decodeTableWord 8 0b10110 = some (.wrRsvd 0 0) ∧ decodeTableWord 8 0b10111 = some (.wrRsvd 1 0) := by decide
theorem test_decode_wrDigest : decodeTableWord 8 0b11000 = some (.wrDigest 0 0) ∧ decodeTableWord 8 0b11111 = some (.wrDigest 7 0) := by decide
/-- The reserved words named in R184 and V9. -/
theorem test_decode_reserved : decodeCmdw 0x00000004#32 = none ∧ decodeCmdw 0x00000011#32 = none ∧
    decodeCmdw 0x00000042#32 = none ∧ decodeCmdw 0x80000001#32 = none ∧ decodeCmdw 0x00000013#32 = none := by decide
/-- The table's numbering: no object where the three spare bits of the BUSOP byte are set. -/
theorem test_decode_framing : decodeTableWord 8 0x20 = none := by decide

/-! ## Well-formedness: an ill-formed term for each check -/

theorem test_wellFormed_instr : Instr.wellFormed (.absorb 3) = true := by decide
theorem test_illFormed_read_with_data : Encoded.wellFormed (.busop 0b00010#5 1#32) = false := by decide
theorem test_illFormed_label : programWellFormed [.bne 0 0#32 2, .halt] = false := by decide
theorem test_illFormed_beq_label : programWellFormed [.beq 0 0#32 1] = false := by decide
theorem test_illFormed_send : programWellFormed [.send (.busop 0#5 7#32)] = false := by decide
theorem test_illFormed_halfword : rawAccessWellFormed 0 .half = false := by decide
theorem test_illFormed_misaligned : rawAccessWellFormed 2 .word = false := by decide
theorem test_illFormed_outside : HostLine.wellFormed 1 (.store (Config.base + 64) .word 0#32) = false := by
  simp [HostLine.wellFormed, rawAccessWellFormed, Config.windowBytes]
theorem test_wellFormed_last_word : HostLine.wellFormed 1 (.load 0 (Config.base + 60) .word) = true := by
  simp [HostLine.wellFormed, rawAccessWellFormed, Config.windowBytes, Config.base]
  omega

/-! ## The SHA-256 core (V1 to V6) -/

theorem test_rotr : rotr 8 0x12345678#32 = 0x78123456#32 ∧ rotr 1 0x00000001#32 = 0x80000000#32 := by decide
theorem test_shr : shr 3 0x80000000#32 = 0x10000000#32 ∧ shr 10 0xFFFFFFFF#32 = 0x003FFFFF#32 := by decide
theorem test_ch : ch 0x510E527F#32 0x9B05688C#32 0x1F83D9AB#32 = 0x1F85C98C#32 := by decide
theorem test_maj : maj 0x6A09E667#32 0xBB67AE85#32 0x3C6EF372#32 = 0x3A6FE667#32 := by decide
theorem test_bsig0 : bsig0 0x6A09E667#32 = 0xCE20B47E#32 := by decide
theorem test_bsig1 : bsig1 0x510E527F#32 = 0x3587272B#32 := by decide
theorem test_ssig0 : ssig0 0x61626380#32 = 0x940E90EF#32 := by decide
theorem test_ssig1 : ssig1 0x61626380#32 = 0x7DA86405#32 := by decide
theorem test_roundConstants : roundConstants.length = 64 ∧ roundConstants.getD 0 0 = 0x428A2F98#32 ∧
    roundConstants.getD 31 0 = 0x14292967#32 ∧ roundConstants.getD 63 0 = 0xC67178F2#32 := by decide

/-- The padded block of "abc" (V3). -/
def abcBlock : Vector Byte 64 := blockAt (padMessage [0x61#8, 0x62#8, 0x63#8]) 0

theorem test_messageWords_abc : (messageWords abcBlock).getD 0 0 = 0x61626380#32 ∧
    (messageWords abcBlock).getD 14 0 = 0#32 ∧ (messageWords abcBlock).getD 15 0 = 0x00000018#32 := by decide
set_option maxRecDepth 8000 in
/-- V3, the last schedule word. -/
theorem test_schedule_abc : (schedule abcBlock).getD 17 0 = 0x000F0000#32 ∧ (schedule abcBlock).getD 63 0 = 0x12B1EDEB#32 := by
  decide
/-- V4, round 0. -/
theorem test_round_zero : (compressionRound (startVars iv) (0x428A2F98#32, 0x61626380#32)).a = 0x5D6AEBCD#32 ∧
    (compressionRound (startVars iv) (0x428A2F98#32, 0x61626380#32)).e = 0xFA2A4622#32 := by decide
set_option maxRecDepth 20000 in
/-- R116 and V5: the compression of the padded "abc" block. -/
theorem test_compress_abc : compress iv abcBlock = abcDigest := by decide
/-- V6: how many padded blocks a message of 55, 56 and 64 bytes has. -/
theorem test_padZeros : padZeros 0 = 55 ∧ padZeros 3 = 52 ∧ padZeros 55 = 0 ∧ padZeros 56 = 63 ∧ padZeros 63 = 56 := by decide
theorem test_be64 : be64 0x1B8#64 = [0#8, 0#8, 0#8, 0#8, 0#8, 0#8, 0x01#8, 0xB8#8] := by decide

/-! ## Commands (V8) -/

/-- CM1, CM10: NOP leaves STATUS. -/
theorem test_nop : statusWord (after .nop State.reset) = 0#32 ∧ statusWord (after .nop (activeWith 3)) = 0x00000301#32 := by decide
/-- CM2 right after the write. -/
theorem test_init_issue : statusWord (after .init State.reset) = 0x00000004#32 := by decide
/-- CM2 after completion. -/
theorem test_init_complete : statusWord (complete initPending) = 0x00000001#32 ∧ (complete initPending).hash.h[0] = 0x6A09E667#32 := by decide
/-- CM3 right after the write. -/
theorem test_absorb_issue : statusWord (after (.absorb 2) { active with din := 0x61626300#32 }) = 0x00000005#32 := by decide
/-- CM3 after completion. -/
theorem test_absorb_complete :
    statusWord (complete { active with pend := some { op := .absorb, n := 3, data := 0x616263FF#32 } }) = 0x00000301#32 ∧
    (complete { active with pend := some { op := .absorb, n := 3, data := 0x616263FF#32 } }).hash.buf.toList.take 4 =
      [0x61#8, 0x62#8, 0x63#8, 0#8] := by decide
set_option maxRecDepth 20000 in
/-- V12 SP5: an ABSORB.4 that straddles the block boundary. -/
theorem test_absorb_straddles :
    (absorbBytes (activeWith 62).hash (absorbedBytes 4 0x42434445#32)).h[0] = 0x14EC203C#32 ∧
    (absorbBytes (activeWith 62).hash (absorbedBytes 4 0x42434445#32)).buf.toList.take 3 = [0x44#8, 0x45#8, 0#8] ∧
    (absorbBytes (activeWith 62).hash (absorbedBytes 4 0x42434445#32)).cnt = 2#6 ∧
    (absorbBytes (activeWith 62).hash (absorbedBytes 4 0x42434445#32)).bitlen = 0x210#64 := by decide
/-- CM8 right after the write. -/
theorem test_final_issue : statusWord (after .final (activeWith 56)) = 0x00003805#32 := by decide
set_option maxRecDepth 20000 in
/-- X1, CM7: FINAL of the empty message. -/
theorem test_final_empty : (pad initHash).h =
    #v[0xE3B0C442#32, 0x98FC1C14#32, 0x9AFBF4C8#32, 0x996FB924#32, 0x27AE41E4#32, 0x649B934C#32, 0xA495991B#32, 0x7852B855#32] := by
  decide
set_option maxRecDepth 20000 in
/-- CM9, V7: 55 bytes need one block. -/
theorem test_final_55 : (pad (activeWith 55).hash).h[0] = 0x8963CC0A#32 ∧ (pad (activeWith 55).hash).h[7] = 0x02E6AB00#32 := by decide
set_option maxRecDepth 20000 in
/-- CM8, V7: 56 bytes need two. -/
theorem test_final_56 : (pad (activeWith 56).hash).h[0] = 0x6EA719CE#32 ∧ (pad (activeWith 56).hash).h[7] = 0xC1412314#32 := by decide
/-- CM4: DONE and CNT 0 after FINAL, BITLEN kept. -/
theorem test_final_status :
    statusWord (completeFinal (activeWith 3)) = 0x00000002#32 ∧ (completeFinal (activeWith 3)).hash.bitlen = 0x18#64 := by decide

/-! ## Errors (V9, V11) -/

theorem test_er1_final_in_idle : statusWord (after (.wrCmd 0x3#32) State.reset) = 0x00000008#32 := by decide
theorem test_er2_absorb_in_idle : statusWord (after (.wrCmd 0x32#32) State.reset) = 0x00000008#32 := by decide
theorem test_er3_absorb_in_done : statusWord (after (.absorb 0) abcDone) = 0x0000000A#32 := by decide
theorem test_er5_reserved : statusWord (after (.wrCmd 0x4#32) State.reset) = 0x00000010#32 := by decide
theorem test_er7_absorb_bit6 : statusWord (after (.wrCmd 0x42#32) active) = 0x00000011#32 := by decide
theorem test_er9_reserved_before_sequence : statusWord (after (.wrCmd 0x13#32) State.reset) = 0x00000010#32 := by decide
theorem test_er10_busy : statusWord (after .final initPending) = 0x00000024#32 ∧
    statusWord (complete (after .final initPending)) = 0x00000021#32 := by decide
theorem test_er11_busy_before_reserved : statusWord (after (.wrCmd 0x4#32) initPending) = 0x00000024#32 := by decide
theorem test_er12_nop_while_busy : statusWord (after .nop initPending) = 0x00000024#32 := by decide
theorem test_er13_too_long : statusWord (after (.absorb 3) nearLimit) = 0x00003C41#32 := by decide
theorem test_ln2_just_fits : statusWord (after (.absorb 2) nearLimit) = 0x00003C05#32 := by decide
theorem test_er15_clear_one :
    statusWord (after (.wrStatus 0x8#32) { State.reset with err := { Errors.none with seq := true, cmd := true } }) = 0x00000010#32 := by
  decide
theorem test_er17_other_bits_ignored :
    statusWord (after (.wrStatus 0xFFFFFF87#32) { State.reset with err := { Errors.none with seq := true, cmd := true } }) =
      0x00000018#32 := by decide

/-! ## Register accesses (V10) -/

theorem test_rdId : (after .rdId abcDone).rdata = 0x53323536#32 ∧ (after .rdId (after (.wrId 0xFFFFFFFF#32) abcDone)).rdata = 0x53323536#32 := by decide
theorem test_rdCmd : (after .rdCmd { abcDone with rdata := 5#32 }).rdata = 0#32 := by decide
theorem test_rdStatus : (after .rdStatus (activeWith 3)).rdata = 0x00000301#32 := by decide
theorem test_rdDin : (after .rdDin (after (.wrDin 0xDEADBEEF#32) abcDone)).rdata = 0xDEADBEEF#32 := by decide
theorem test_rdBitlen : (after .rdBitlenLo abcDone).rdata = 0x18#32 ∧
    (after .rdBitlenHi { active with hash := { initHash with bitlen := 0x100000000#64 } }).rdata = 1#32 := by decide
theorem test_rdRsvd : (after (.rdRsvd 1) { abcDone with rdata := 5#32 }).rdata = 0#32 := by decide
theorem test_rdDigest_done : (after (.rdDigest 0) abcDone).rdata = 0xBA7816BF#32 ∧ (after (.rdDigest 7) abcDone).rdata = 0xF20015AD#32 := by decide
/-- DIGEST reads 0 in ACTIVE, and in DONE with an INIT pending it is still readable (V10). -/
theorem test_rdDigest_phase : (after (.rdDigest 0) active).rdata = 0#32 ∧
    (after (.rdDigest 0) { abcDone with pend := initPending.pend }).rdata = 0xBA7816BF#32 := by decide
theorem test_writes_ignored : after (.wrDigest 0 0#32) abcDone = abcDone ∧ after (.wrBitlen 1 0xFFFFFFFF#32) abcDone = abcDone ∧
    after (.wrRsvd 0 7#32) abcDone = abcDone := by decide
theorem test_wrStatus_ignores_fields : after (.wrStatus 0x7#32) initPending = initPending := by decide
theorem test_register_offsets : RegName.off .status = 0x08 ∧ RegName.off (.digest 7) = 0x3C := by decide

/-! ## Reset, steps and the host (V13, V14, L3) -/

/-- The state after one step, or `s` if it stops. -/
def stepped (s : State) : State :=
  match step s with
  | .next t => t
  | .fault _ => s
  | .refused _ => s

/-- RS3: a reset discards a pending FINAL. -/
theorem test_rs3_reset_discards :
    statusWord (stepped { activeWith 3 with pend := some { op := .final, n := 1, data := 0#32 }, platform := [.rst false] }) = 0#32 := by decide
/-- RS4: while reset is held a read gives 0 and a CMD write has no effect. -/
theorem test_rs4_in_reset : (after .rdId { State.reset with rstN := false }).rdata = 0#32 ∧
    (after (.wrCmd 1#32) { State.reset with rstN := false }).busy = false := by decide
/-- The first step after reset runs a placed instruction. -/
theorem test_withFetchWord_read : (stepped (State.reset.withFetchWord 8 0x00)).rdata = 0x53323536#32 := by decide
theorem test_withFetchWord_command : (stepped (State.reset.withFetchWord 32 0x01)).busy = true := by decide
/-- HZ1: the read before the completion and after it. -/
theorem test_hz1_before : (after .rdStatus { active with pend := some { op := .absorb, n := 3, data := 0x61626300#32 } }).rdata = 0x00000005#32 := by decide
/-- P6: both outcomes of INIT, FINAL with no poll between. -/
theorem test_p6_completion_first :
    (stepped { initPending with delay := 0, host := { HostAgent.empty with prog := [.send (.cmdw 3#32)] } }).phase = .active := by decide
theorem test_p6_write_first :
    statusWord (stepped { initPending with delay := 1, host := { HostAgent.empty with prog := [.send (.cmdw 3#32)] } }) = 0x00000024#32 := by decide
/-- A reserved command word sent to CMD sets ERR_CMD and stops nothing (R86). -/
theorem test_reserved_word_runs : statusWord (stepped (State.reset.withFetchWord 32 0x04)) = 0x00000010#32 := by decide
/-- `RD v1, ID` into the variable; `ADDI` wraps modulo 2^32 (P4). -/
theorem test_host_read : (stepped { State.reset with host := { HostAgent.empty with prog := [.rd 1 .id] } }).host.vars[1] = 0x53323536#32 := by decide
theorem test_host_addi_wraps :
    (stepped { State.reset with host := { HostAgent.empty with prog := [.addi 2 2 0xFFFFFFFF#32] } }).host.vars[2] = 0xFFFFFFFF#32 := by decide
/-- R222: the run is over at HALT with BUSY = 0, and not with a command pending. -/
theorem test_runEnded : runEnded { State.reset with host := { HostAgent.empty with prog := [.halt] } } = true ∧
    runEnded { initPending with host := { HostAgent.empty with prog := [.halt] } } = false := by decide
/-- P3's lines: "test:0" is INITW, an ABS of four bytes, one of two, FINALW. -/
theorem test_hashLines : (hashLines [0x74#8, 0x65#8, 0x73#8, 0x74#8, 0x3A#8, 0x30#8] 0).length = 18 ∧
    (hashLines [0x74#8, 0x65#8, 0x73#8, 0x74#8, 0x3A#8, 0x30#8] 0)[9]? = some (.wr .din 0x3A300000#32) ∧
    (hashLines [0x74#8, 0x65#8, 0x73#8, 0x74#8, 0x3A#8, 0x30#8] 0)[10]? = some (.wr .cmd 0x00000012#32) := by decide

/-! ## Witnesses for the hypotheses of the statements -/

/-- A host at one line. -/
def atLine (l : HostLine) (s : State) : State := { s with host := { HostAgent.empty with prog := [l] } }

theorem witness_DecodeOfEncode : Instr.wellFormed (.wrDigest 7 0xFFFFFFFF#32) = true := by decide
theorem witness_EncodeOfDecoded : Encoded.wellFormed (.busop 0b00010#5 0#32) = true ∧
    (match decode (.busop 0b00010#5 0#32) with | .ok i => i == .rdStatus | .error _ => false) = true := by decide
/-- Each field value of R86's clauses is met by a word. -/
theorem witness_ReservedWords : decodeCmdw 0x0000000F#32 = none ∧ decodeCmdw 0x00000010#32 = none ∧ decodeCmdw 0x80000003#32 = none ∧
    decodeCmdw 0x00000072#32 = none ∧ decodeCmdw 0x00000032#32 ≠ none := by decide
theorem witness_CommandWords : 4 ≤ ((0x00000004#32 : Word).extractLsb' 0 4).toNat := by decide
theorem witness_ResetEvent :
    { abcDone with platform := [.rst false] }.platform = .rst false :: [] ∧
    { State.reset with rstN := false }.platform.head? ≠ some (.rst true) ∧
    { State.reset with rstN := false, platform := [.rst true] }.platform = .rst true :: [] := by decide
theorem witness_ResetEvent_held : EngineAtReset { State.reset with rstN := false } := by
  constructor <;> decide
theorem witness_ResetDiscards : { initPending with platform := [.rst false] }.pend = some { op := .init, n := 1, data := 0#32 } ∧
    { State.reset with rstN := false }.rstN = false := by decide
/-- NOP, INIT, PhaseTable, WR CMD reserved: accepting states in each phase, and busy ones. -/
theorem witness_Accepting : Accepting State.reset ∧ Accepting active ∧ Accepting abcDone ∧ initPending.rstN = true ∧ initPending.busy = true := by
  decide
theorem witness_AbsorbTakesItsBytes :
    (nearLimit.rstN = true ∧ nearLimit.busy = false ∧ nearLimit.phase = .active) ∧
    nearLimit.hash.bitlen.toNat + 8 * ((2#2).toNat + 1) ≤ 2 ^ 64 - 1 ∧ nearLimit.hash.bitlen.toNat + 8 * ((3#2).toNat + 1) > 2 ^ 64 - 1 ∧
    State.reset.phase ≠ .active ∧ initPending.busy = true := by decide
theorem witness_AbsorbByte : (activeWith 62).hash.cnt.toNat < 63 ∧ (activeWith 63).hash.cnt.toNat = 63 := by decide
theorem witness_Final : (activeWith 55).rstN = true ∧ (activeWith 55).busy = false ∧ (activeWith 55).phase = .active ∧ abcDone.phase ≠ .active := by
  decide
theorem witness_Mnemonic : cmdWordOf (.absorb 3) = some 0x00000032#32 ∧ cmdWordOf (.wrCmd 4#32) = some 4#32 := by decide
theorem witness_CmdWrite : State.reset.rstN = true ∧ decodeCmdw 0x12#32 = some (.absorb 1) := by decide
theorem witness_PhaseTable : Accepting abcDone ∧ abcDone.phase ≠ .active := by decide
theorem witness_BusyWrite : cmdWordOf .nop = some 0#32 ∧ initPending.rstN = true ∧ initPending.busy = true := by decide
theorem witness_ReservedWrite : Accepting State.reset ∧ decodeCmdw 0x4#32 = none := by decide
theorem witness_OutOfSequence : cmdWordOf (.absorb 0) = some 0x2#32 ∧ Accepting abcDone ∧ abcDone.phase ≠ .active ∧
    decodeCmdw 0x2#32 = some (.absorb 0) ∧ decodeCmdw 0x3#32 = some .final := by decide
theorem witness_Overlong : cmdWordOf (.absorb 3) = some 0x32#32 ∧ Accepting nearLimit ∧ nearLimit.phase = .active ∧
    decodeCmdw 0x32#32 = some (.absorb 3) ∧ nearLimit.hash.bitlen.toNat + 8 * ((3#2).toNat + 1) > 2 ^ 64 - 1 := by decide
theorem witness_ErrorBits_persist : exec .rdId { State.reset with err := { Errors.none with seq := true } } =
      .next { State.reset with err := { Errors.none with seq := true }, rdata := 0x53323536#32 } ∧
    errorBit .seq { Errors.none with seq := true } = true := ⟨rfl, by decide⟩
theorem witness_Raising : exec .final State.reset = .next { State.reset with err := { Errors.none with seq := true } } ∧
    errorBit .seq { Errors.none with seq := true } = true ∧ errorBit .seq State.reset.err = false := ⟨rfl, by decide, by decide⟩
theorem witness_Reads : State.reset.rstN = true ∧ isRead .rdStatus = true := by decide
theorem witness_PendingData : initPending.rstN = true ∧ initPending.busy = true := by decide
theorem witness_EveryAccess : cmdWordOf (.wrStatus 8#32) = none := by decide
theorem witness_Frame : exec (.wrDin 7#32) State.reset = .next { State.reset with din := 7#32 } ∧ cmdWordOf (.wrDin 7#32) = none ∧
    isRead (.wrDin 7#32) = false := ⟨rfl, by decide, by decide⟩
theorem witness_Hidden : active.phase ≠ .done := by decide
theorem witness_DigestImmutable : abcDone.phase = .done ∧ abcDone.pend = none ∧ exec .nop abcDone = .next abcDone := ⟨rfl, rfl, rfl⟩
/-- INIT from DONE, the one command left pending there. -/
theorem witness_DigestImmutable_init : (after .init abcDone).pend = some { op := .init, n := 1, data := 0x61626300#32 } := by decide
theorem witness_Rotation : 1 ≤ 1 ∧ 31 ≤ 31 ∧ 31 < 32 := by decide
theorem witness_Schedule : 16 ≤ 16 ∧ 16 < 64 ∧ 16 ≤ 63 ∧ 63 < 64 := by decide
theorem witness_Padded : 8 * [0x61#8, 0x62#8, 0x63#8].length ≤ 2 ^ 64 - 8 ∧ ([0x61#8, 0x62#8, 0x63#8].length + 1 + 52 + 8) % 64 = 0 := by decide
/-- "ab" in one ABSORB.2 or in two ABSORB.1, each run to its completion from ACTIVE. -/
theorem witness_SplitInvariance : active.phase = .active ∧ Accepting active ∧
    active.hash.bitlen.toNat + 8 * (messageOf [(1, 0x61620000#32)]).length ≤ 2 ^ 64 - 1 ∧
    messageOf [(1, 0x61620000#32)] = messageOf [(0, 0x61FFFFFF#32), (0, 0x62FFFFFF#32)] ∧
    (runSequence (feedInstrs [(1, 0x61620000#32)]) active).isSome = true ∧
    (runSequence (feedInstrs [(0, 0x61FFFFFF#32), (0, 0x62FFFFFF#32)]) active).isSome = true := by decide
theorem witness_SplitInvariance_final : (runToIdle .final (activeWith 3)).isSome = true := rfl
theorem witness_DigestIsSha256 : Accepting State.reset ∧ 8 * (messageOf [(2, 0x61626300#32)]).length ≤ 2 ^ 64 - 8 := by decide
theorem witness_Step : (atLine (.send (.busop 0#5 0#32)) State.reset).platform = [] ∧
    engineReady (atLine (.send (.busop 0#5 0#32)) State.reset) = false ∧
    (atLine (.send (.busop 0#5 0#32)) State.reset).host.prog[0]? = some (.send (.busop 0#5 0#32)) ∧
    Instr.wellFormed .rdId = true ∧ { State.reset with platform := [.access (.busop 0#5 0#32)] }.platform.head? =
      some (.access (.busop 0#5 0#32)) := by decide
theorem witness_Step_decodes : decode (.busop 0#5 0#32) = .ok .rdId := rfl
theorem witness_HostLines :
    (atLine (.wr .din 7#32) State.reset).host.prog[0]? = some (.wr .din 7#32) ∧ (atLine (.wrv .din 1) State.reset).host.prog[0]? = some (.wrv .din 1) ∧
    (atLine (.rd 1 .id) State.reset).host.prog[0]? = some (.rd 1 .id) ∧ isHostLocal .halt = true ∧
    engineReady (atLine (.wr .din 7#32) State.reset) = false := by decide
theorem witness_HostLines_local : step (atLine .halt State.reset) = .next (atLine .halt State.reset) := rfl
theorem witness_HostLocalLines : (atLine (.bne 0 1#32 0) State.reset).host.prog[0]? = some (.bne 0 1#32 0) ∧
    0 < (atLine (.bne 0 1#32 0) State.reset).host.prog.length ∧ (atLine (.li 7 5#32) State.reset).host.prog[0]? = some (.li 7 5#32) ∧
    (atLine (.addi 7 6 5#32) State.reset).host.prog[0]? = some (.addi 7 6 5#32) ∧
    (atLine (.andi 7 6 5#32) State.reset).host.prog[0]? = some (.andi 7 6 5#32) ∧
    (atLine (.beq 7 5#32 0) State.reset).host.prog[0]? = some (.beq 7 5#32 0) ∧ (atLine .halt State.reset).host.prog[0]? = some .halt := by decide
theorem witness_EngineStep : initPending.platform = [] ∧ initPending.rstN = true ∧ initPending.busy = true ∧ initPending.delay = 0 := by decide
/-- The other direction: nothing pending, and a delay not yet run out. -/
theorem witness_EngineStep_not_due : step State.reset = .next State.reset ∧ State.reset.busy = false ∧
    step { initPending with delay := 1 } = .next initPending ∧ initPending.busy = true := ⟨rfl, rfl, rfl, rfl⟩
theorem witness_ResultDoesNotDepend : initPending.busy = true ∧ exec .rdCmd initPending = .next { initPending with rdata := 0#32 } :=
  ⟨rfl, rfl⟩
theorem witness_BothOrders : (atLine (.send (.busop 0x11#5 3#32)) initPending).platform = [] ∧
    (atLine (.send (.busop 0x11#5 3#32)) initPending).pend = some { op := .init, n := 1, data := 0#32 } ∧
    (atLine (.send (.busop 0x11#5 3#32)) initPending).host.prog[0]? = some (.send (.busop 0x11#5 3#32)) := by decide
theorem witness_Progress : initPending.rstN = true ∧ initPending.busy = true ∧ initPending.platform = [] ∧
    programWellFormed (atLine (.bne 0 1#32 0) initPending).host.prog = true := by decide
/-- A state other than reset that has the invariants, with an ABSORB of four bytes pending. -/
def invWitness : State :=
  { active with
    hash := { h := iv, buf := zeroBlock, cnt := 0#6, bitlen := 0#64 }
    pend := some { op := .absorb, n := 4, data := 0x61626364#32 } }
theorem witness_Inv : Inv invWitness where
  idle := by decide
  active := by decide
  done := by decide
  wholeBytes := by decide
  emptyTail := by decide
  pending := by
    intro p hp
    cases hp
    exact ⟨rfl, by decide, by decide, by decide⟩
  inReset := fun h => absurd h (by decide)
/-- An IDLE state out of reset that has the invariants (the BITLEN reads). -/
theorem witness_ReadsOfBitlen : Inv { State.reset with din := 1#32 } ∧ State.reset.phase = .idle ∧ State.reset.rstN = true :=
  ⟨⟨by decide, by decide, by decide, by decide, by decide, (fun _ h => nomatch h), fun h => absurd h (by decide)⟩, rfl, rfl⟩
theorem witness_Inv_step : step invWitness = .next (complete invWitness) ∧ invWitness.pend = some { op := .absorb, n := 4, data := 0x61626364#32 } :=
  ⟨rfl, rfl⟩
/-- Raw accesses at the window's edges: the first address past it, its last byte, a byte at its first address, and its
first and last words. -/
theorem witness_RawAccess : Config.base + 64 ≤ Config.base + 64 ∧
    (Config.base ≤ Config.base + 63 ∧ Config.base + 63 < Config.base + 64 ∧ (Config.base + 63) % 4 ≠ 0) ∧
    (Config.base ≤ Config.base ∧ Config.base < Config.base + 64 ∧ AccessSize.byte ≠ .word) ∧
    (Config.base % 4 = 0 ∧ Config.base + 60 < Config.base + 64 ∧ (Config.base + 60) % 4 = 0) ∧
    engineReady (atLine (.load 0 (Config.base + 64) .word) State.reset) = false ∧
    engineReady (atLine (.store (Config.base + 60) .word 7#32) State.reset) = false := by
  refine ⟨le_refl _, ⟨?_, ?_, ?_⟩, ⟨le_refl _, ?_, by decide⟩, ⟨?_, ?_, ?_⟩, rfl, rfl⟩ <;> simp only [Config.base] <;> omega

end Sys2Proof.Tests
end

section
/-! The digest bytes of eight words (20_memory.md R56). `digestBytes` lays equal chunks of four bytes end to end, so the
byte at `4i + j` is byte `j` of word `i`. -/

namespace Sys2Proof.Machine

/-- Chunks of one length `n` laid end to end: position `n * i + j` is position `j` of chunk `i`. -/
theorem getElem?_flatMap_of_length_eq {α β : Type} {f : α → List β} {n : Nat} (hf : ∀ a, (f a).length = n)
    {j : Nat} (hj : j < n) (l : List α) (i : Nat) :
    (l.flatMap f)[n * i + j]? = l[i]?.bind fun a => (f a)[j]? := by
  induction l generalizing i with
  | nil => simp
  | cons a l ih =>
    cases i with
    | zero =>
      have inFirst : j < (f a).length := by rwa [hf]
      simp [List.getElem?_append_left inFirst]
    | succ i =>
      have pastFirst : (f a).length ≤ n * (i + 1) + j := by rw [hf, Nat.mul_succ]; omega
      have inRest : n * (i + 1) + j - (f a).length = n * i + j := by rw [hf, Nat.mul_succ]; omega
      rw [List.flatMap_cons, List.getElem?_append_right pastFirst, inRest, ih, List.getElem?_cons_succ]

@[simp] theorem digestBytes_length (h : Vector Word 8) : (digestBytes h).length = 32 := by
  simp [digestBytes, List.length_flatMap]

theorem digestBytes_getElem? (h : Vector Word 8) (i : Fin 8) (j : Fin 4) :
    (digestBytes h)[4 * i.val + j.val]? = some (wordByte h[i.val] j.val) := by
  have chunk : ∀ w : Word, ((List.range 4).map (wordByte w)).length = 4 := fun w => by simp
  rw [digestBytes, getElem?_flatMap_of_length_eq chunk j.isLt]
  simp

/-- Settles O47: `wordByte` takes byte `j` of a word from its bits `31 - 8j : 24 - 8j`. -/
theorem digestBytesAreBigEndian : Obligations.DigestBytesAreBigEndian :=
  fun h => ⟨digestBytes_length h, digestBytes_getElem? h⟩

end Sys2Proof.Machine
end

section
/-! Command words (30_encoding.md R82, R84, R86). `encodeCommand` writes R82's table of full CMDW values, and R84's
decoding is its inverse: a word decodes to a command exactly when it is that command's word. -/

namespace Sys2Proof

/-- R81: the fields MBZ, NB and OP, from the top bit down, make up the command word. -/
theorem cmdwFields_append (v : Word) : v.extractLsb' 6 26 ++ v.extractLsb' 4 2 ++ v.extractLsb' 0 4 = v := by
  have upper : v.extractLsb' 6 26 ++ v.extractLsb' 4 2 = v.extractLsb' 4 28 :=
    BitVec.extractLsb'_append_extractLsb'_eq_extractLsb' rfl
  have whole : v.extractLsb' 4 28 ++ v.extractLsb' 0 4 = v.extractLsb' 0 32 :=
    BitVec.extractLsb'_append_extractLsb'_eq_extractLsb' rfl
  rw [upper, whole, BitVec.extractLsb'_eq_self]

@[simp] theorem decodeCmdw_encodeCommand (c : Command) : decodeCmdw (encodeCommand c) = some c := by
  cases c with
  | nop => rfl
  | init => rfl
  | absorb nb => revert nb; decide
  | final => rfl

theorem encodeCommand_of_decodeCmdw {v : Word} {c : Command} (h : decodeCmdw v = some c) : encodeCommand c = v := by
  unfold decodeCmdw at h
  split_ifs at h with isNop isInit isAbsorb isFinal <;> cases h
  · exact isNop.symm
  · exact isInit.symm
  · obtain ⟨op, mbz⟩ := isAbsorb
    calc encodeCommand (.absorb (v.extractLsb' 4 2))
      _ = v.extractLsb' 6 26 ++ v.extractLsb' 4 2 ++ v.extractLsb' 0 4 := by rw [op, mbz, encodeCommand]
      _ = v := cmdwFields_append v
  · exact isFinal.symm

theorem decodeCmdw_eq_some_iff {v : Word} {c : Command} : decodeCmdw v = some c ↔ v = encodeCommand c where
  mp h := (encodeCommand_of_decodeCmdw h).symm
  mpr h := by rw [h, decodeCmdw_encodeCommand]

theorem encodeCommand_op_lt_four (c : Command) : ((encodeCommand c).extractLsb' 0 4).toNat < 4 := by
  cases c with
  | nop => decide
  | init => decide
  | absorb nb => revert nb; decide
  | final => decide

/-- R86: the OP values that no command's word has are reserved, whatever the other bits. -/
theorem decodeCmdw_eq_none_of_four_le_op {v : Word} (reserved : 4 ≤ (v.extractLsb' 0 4).toNat) :
    decodeCmdw v = none := by
  rw [Option.eq_none_iff_forall_ne_some]
  intro c decodes
  have opLt : (v.extractLsb' 0 4).toNat < 4 := encodeCommand_of_decodeCmdw decodes ▸ encodeCommand_op_lt_four c
  omega

/-- Settles O2: each row's full CMDW value is `encodeCommand` of its command, the only word that decodes to it. -/
theorem commandWordsAreExactlyTheTable : Obligations.CommandWordsAreExactlyTheTable := fun _ =>
  ⟨decodeCmdw_eq_some_iff, decodeCmdw_eq_some_iff, decodeCmdw_eq_some_iff, decodeCmdw_eq_some_iff,
    decodeCmdw_eq_some_iff, decodeCmdw_eq_some_iff, decodeCmdw_eq_some_iff, decodeCmdw_eq_none_of_four_le_op⟩

end Sys2Proof
end

section
/-! The functions on words (40_sha256_core.md R101 to R108), bit by bit. -/

namespace Sys2Proof.Machine

theorem rotr_getLsbD {n : Nat} (hn : n ≤ 32) (x : Word) {i : Nat} (hi : i < 32) :
    (rotr n x).getLsbD i = x.getLsbD ((i + n) % 32) := by
  simp only [rotr, BitVec.getLsbD_or, BitVec.getLsbD_ushiftRight, BitVec.getLsbD_shiftLeft]
  by_cases wraps : i + n < 32
  · have fromRight : i < 32 - n := by omega
    simp [fromRight, Nat.mod_eq_of_lt wraps, Nat.add_comm n i]
  · have offTop : x.getLsbD (n + i) = false := BitVec.getLsbD_of_ge x _ (by omega)
    have fromLeft : ¬ i < 32 - n := by omega
    have index : (i + n) % 32 = i - (32 - n) := by omega
    simp [offTop, fromLeft, index, hi]

theorem shr_getLsbD (n : Nat) (x : Word) (i : Nat) : (shr n x).getLsbD i = x.getLsbD (i + n) := by
  rw [shr, BitVec.getLsbD_ushiftRight, Nat.add_comm]

/-- Settles O41: a shift reads past the top of the word, where every bit is 0. -/
theorem rotationAndShiftBitByBit : Obligations.RotationAndShiftBitByBit := by
  intro n x i _ hn hi
  refine ⟨rotr_getLsbD (by omega) x hi, ?_⟩
  rw [shr_getLsbD]
  split
  · rfl
  · exact BitVec.getLsbD_of_ge x _ (by omega)

theorem ch_getLsbD (x y z : Word) {i : Nat} (hi : i < 32) :
    (ch x y z).getLsbD i = if x.getLsbD i then y.getLsbD i else z.getLsbD i := by
  simp only [ch, BitVec.getLsbD_xor, BitVec.getLsbD_and, BitVec.getLsbD_not, hi, decide_true, Bool.true_and]
  cases x.getLsbD i <;> simp

theorem maj_getLsbD (x y z : Word) (i : Nat) :
    (maj x y z).getLsbD i = decide (2 ≤ (x.getLsbD i).toNat + (y.getLsbD i).toNat + (z.getLsbD i).toNat) := by
  simp only [maj, BitVec.getLsbD_xor, BitVec.getLsbD_and]
  generalize x.getLsbD i = xBit, y.getLsbD i = yBit, z.getLsbD i = zBit
  revert xBit yBit zBit
  decide

/-- Settles O42: Ch by the value of the `x` bit, Maj by the table of three bits. -/
theorem chooseAndMajorityBitByBit : Obligations.ChooseAndMajorityBitByBit :=
  fun x y z i hi => ⟨ch_getLsbD x y z hi, maj_getLsbD x y z i⟩

/-- Settles O43: XOR acts bit by bit on the rotations and the shift. -/
theorem sigmasBitByBit : Obligations.SigmasBitByBit := by
  intro x i hi
  have rot : ∀ n ≤ 32, (rotr n x).getLsbD i = x.getLsbD ((i + n) % 32) := fun n hn => rotr_getLsbD hn x hi
  simp [bsig0, bsig1, ssig0, ssig1, rot, shr_getLsbD]

end Sys2Proof.Machine
end

section
/-! The message schedule (R111, R112): after its first sixteen words every word is the recurrence on those before it. -/

namespace Sys2Proof.Machine

theorem expandSchedule_getElem? (k : Nat) (w : List Word) {t : Nat} (ht : w.length ≤ t) (hk : t < w.length + k) :
    (expandSchedule k w)[t]? = some (nextScheduleWord ((expandSchedule k w).take t)) := by
  induction k generalizing w with
  | zero => omega
  | succ k ih =>
    rw [expandSchedule]
    by_cases first : t = w.length
    · obtain ⟨later, hlater⟩ := expandSchedule_prefix k (w ++ [nextScheduleWord w])
      subst first
      simp [← hlater]
    · exact ih _ (by simp; omega) (by simp; omega)

theorem schedule_length (b : Vector Byte 64) : (schedule b).length = 64 := by
  rw [schedule, expandSchedule_length, messageWords_length]

theorem schedule_getElem?_of_lt_sixteen (b : Vector Byte 64) (t : Fin 16) :
    (schedule b)[t.val]? = some (messageWord b t) := by
  obtain ⟨later, hlater⟩ := expandSchedule_prefix 48 (messageWords b)
  have inBlock : t.val < (messageWords b).length := by simp
  rw [schedule, ← hlater, List.getElem?_append_left inBlock]
  simp [messageWords]

theorem nextScheduleWord_take (w : List Word) {t : Nat} (h16 : 16 ≤ t) (ht : t ≤ w.length) :
    nextScheduleWord (w.take t) =
      ssig1 (w.getD (t - 2) 0#32) + w.getD (t - 7) 0#32 + ssig0 (w.getD (t - 15) 0#32) + w.getD (t - 16) 0#32 := by
  have kept : ∀ d, 0 < d → (w.take t).getD (t - d) 0#32 = w.getD (t - d) 0#32 := fun d hd => by
    simp only [List.getD_eq_getElem?_getD]
    rw [List.getElem?_take_of_lt (by omega)]
  simp only [nextScheduleWord, List.length_take_of_le ht, kept 2 (by omega), kept 7 (by omega), kept 15 (by omega),
    kept 16 (by omega)]

/-- Settles O44: an expansion appends words and never changes one, so each stands on the final schedule. -/
theorem scheduleFollowsTheRecurrence : Obligations.ScheduleFollowsTheRecurrence := by
  intro b
  refine ⟨schedule_length b, schedule_getElem?_of_lt_sixteen b, fun t h16 h64 => ?_⟩
  have word : (schedule b)[t]? = some (nextScheduleWord ((schedule b).take t)) :=
    expandSchedule_getElem? 48 (messageWords b) (by simpa using h16) (by simpa using h64)
  rw [List.getD_eq_getElem?_getD, word, Option.getD_some, nextScheduleWord_take _ h16 (by rw [schedule_length]; omega)]

end Sys2Proof.Machine
end

section
/-! Compress (R113 to R116): the working variables before each round. -/

namespace Sys2Proof.Machine

/-- The working variables after the first `t` of the rounds with the pairs `kws` of a constant and a schedule word. -/
def varsAfter (v : WorkingVars) (kws : List (Word × Word)) (t : Nat) : WorkingVars :=
  (kws.take t).foldl compressionRound v

@[simp] theorem varsAfter_zero (v : WorkingVars) (kws : List (Word × Word)) : varsAfter v kws 0 = v := rfl

theorem varsAfter_succ (v : WorkingVars) {kws : List (Word × Word)} {t : Nat} {kw : Word × Word}
    (h : kws[t]? = some kw) : varsAfter v kws (t + 1) = compressionRound (varsAfter v kws t) kw := by
  simp [varsAfter, List.take_add_one, h]

theorem roundConstants_length : roundConstants.length = 64 := rfl

theorem rounds_eq_varsAfter (b : Vector Byte 64) (v : WorkingVars) :
    rounds (schedule b) v = varsAfter v (roundConstants.zip (schedule b)) 64 := by
  rw [varsAfter, List.take_of_length_le (by simp [roundConstants_length, schedule_length]), rounds]

theorem roundPairs_getElem? (b : Vector Byte 64) {t : Nat} (ht : t < 64) :
    (roundConstants.zip (schedule b))[t]? = some (roundConstants.getD t 0#32, (schedule b).getD t 0#32) := by
  have hk : t < roundConstants.length := by rwa [roundConstants_length]
  have hw : t < (schedule b).length := by rwa [schedule_length]
  rw [List.getElem?_zip_eq_some]
  simp [List.getD_eq_getElem?_getD, hk, hw]

/-- Settles O45: `v t` is what the first `t` rounds leave of the working variables. -/
theorem compressIsSixtyFourRoundsAndFeedForward : Obligations.CompressIsSixtyFourRoundsAndFeedForward := by
  refine ⟨rfl, fun h b => ⟨varsAfter (startVars h) (roundConstants.zip (schedule b)), varsAfter_zero _ _, ?_, ?_⟩⟩
  · intro t ht
    rw [varsAfter_succ _ (roundPairs_getElem? b ht), compressionRound]
    simp only [roundT1, roundT2]
  · rw [compress, rounds_eq_varsAfter, feedForward]

end Sys2Proof.Machine
end

section
/-! The padded message (R117): its length in whole blocks, and what stands in front of and in its last eight bytes. -/

namespace Sys2Proof.Machine

/-- The number of blocks of the padded message of `len` bytes (R117). -/
def padBlocks (len : Nat) : Nat := (len + 8) / 64 + 1

theorem length_add_padZeros (len : Nat) : len + 1 + padZeros len = 64 * padBlocks len - 8 := by
  simp only [padZeros, padBlocks]
  omega

theorem padZeros_le {len z : Nat} (whole : (len + 1 + z + 8) % 64 = 0) : padZeros len ≤ z := by
  simp only [padZeros]
  omega

theorem padFront_length (m : List Byte) :
    (m ++ [0x80#8] ++ List.replicate (padZeros m.length) 0#8).length = 64 * padBlocks m.length - 8 := by
  rw [← length_add_padZeros, List.length_append, List.length_append, List.length_singleton, List.length_replicate]

theorem padMessage_length (m : List Byte) : (padMessage m).length = 64 * padBlocks m.length := by
  rw [padMessage, List.length_append, padFront_length, be64_length, padBlocks]
  omega

/-- Settles O46: the run of zeros is `(55 - L) mod 64` bytes, which brings the whole to its last block's end. -/
theorem paddedMessageIsWholeBlocks : Obligations.PaddedMessageIsWholeBlocks :=
  fun m _ => ⟨padZeros m.length, rfl, padMessage_length m, fun _ => padZeros_le⟩

/-- In front of the length field the padding's zeros read as a list that has ended does. -/
theorem padMessage_getD_of_front (m : List Byte) {j : Nat} (hj : j < 64 * padBlocks m.length - 8) :
    (padMessage m).getD j 0#8 = (m ++ [0x80#8]).getD j 0#8 := by
  rw [padMessage, List.getD_append _ _ _ _ (by rwa [padFront_length])]
  by_cases marked : j < (m ++ [0x80#8]).length
  · rw [List.getD_append _ _ _ _ marked]
  · rw [List.getD_append_right _ _ _ _ (by omega), List.getD_eq_getElem?_getD,
      List.getElem?_getD_replicate_default_eq, List.getD_eq_default _ _ (by omega)]

theorem padMessage_getD_of_lengthField (m : List Byte) {k : Nat} (hk : k < 8) :
    (padMessage m).getD (64 * padBlocks m.length - 8 + k) 0#8 = be64Byte (BitVec.ofNat 64 (8 * m.length)) k := by
  have front := padFront_length m
  rw [padMessage, List.getD_append_right _ _ _ _ (by omega), front, Nat.add_sub_cancel_left]
  simp [be64, hk]

end Sys2Proof.Machine
end

section
/-! Blocks of a message (R118), and the hash state that a message leaves (R143, R144): its whole blocks are in H, its
other bytes in BUF. -/

namespace Sys2Proof.Machine

theorem blockAt_congr {m m' : List Byte} {k : Nat}
    (h : ∀ j < 64, m.getD (64 * k + j) 0#8 = m'.getD (64 * k + j) 0#8) : blockAt m k = blockAt m' k := by
  ext j hj : 1
  rw [blockAt_get, blockAt_get, h j hj]

theorem compressBlocks_congr {m m' : List Byte} {n : Nat} (h : ∀ j < 64 * n, m.getD j 0#8 = m'.getD j 0#8)
    (h₀ : Vector Word 8) : compressBlocks m n h₀ = compressBlocks m' n h₀ := by
  induction n with
  | zero => rfl
  | succ n ih =>
    rw [compressBlocks, compressBlocks, ih fun j hj => h j (by omega), blockAt_congr fun j hj => h _ (by omega)]

theorem blockAt_of_length_le {m : List Byte} {k : Nat} (h : m.length ≤ 64 * k) : blockAt m k = zeroBlock := by
  ext j hj : 1
  rw [blockAt_get, zeroBlock_get, List.getD_eq_default _ _ (by omega)]

/-- One more byte of a message stands in its last block, at the first place after the message. -/
theorem blockAt_append_singleton (m : List Byte) (b : Byte) :
    blockAt (m ++ [b]) (m.length / 64) =
      (blockAt m (m.length / 64)).set (m.length % 64) b (Nat.mod_lt _ (by decide)) := by
  ext j hj : 1
  rw [Vector.getElem_set, blockAt_get, blockAt_get]
  split
  · next place =>
    have atEnd : 64 * (m.length / 64) + j = m.length := by omega
    simp [atEnd]
  · next place =>
    rcases Nat.lt_or_ge (64 * (m.length / 64) + j) m.length with before | after
    · rw [List.getD_append _ _ _ _ before]
    · have afterBoth : (m ++ [b]).length ≤ 64 * (m.length / 64) + j := by
        rw [List.length_append, List.length_singleton]
        omega
      rw [List.getD_eq_default _ _ after, List.getD_eq_default _ _ afterBoth]

/-- The hash state after INIT and the bytes of `m`. -/
def hashStateAfter (m : List Byte) : HashState where
  h := compressBlocks m (m.length / 64) iv
  buf := blockAt m (m.length / 64)
  cnt := BitVec.ofNat 6 m.length
  bitlen := BitVec.ofNat 64 (8 * m.length)

theorem hashStateAfter_nil : hashStateAfter [] = initHash := by
  simp [hashStateAfter, initHash, compressBlocks, blockAt_of_length_le]

theorem hashStateAfter_cnt_toNat (m : List Byte) : (hashStateAfter m).cnt.toNat = m.length % 64 := by
  simp [hashStateAfter]

theorem compressBlocks_append {m : List Byte} {n : Nat} (h : 64 * n ≤ m.length) (l : List Byte) (h₀ : Vector Word 8) :
    compressBlocks (m ++ l) n h₀ = compressBlocks m n h₀ :=
  compressBlocks_congr (fun _ hj => List.getD_append _ _ _ _ (by omega)) h₀

theorem hashStateAfter_buf_set (m : List Byte) (b : Byte) :
    (hashStateAfter m).buf.set (hashStateAfter m).cnt.toNat b (hashStateAfter m).cnt.isLt =
      blockAt (m ++ [b]) (m.length / 64) := by
  simp only [hashStateAfter_cnt_toNat, blockAt_append_singleton]
  rfl

/-- AbsorbByte takes the state of a message to that of the message with its byte (R144). -/
theorem absorbByte_hashStateAfter (m : List Byte) (b : Byte) :
    absorbByte (hashStateAfter m) b = hashStateAfter (m ++ [b]) := by
  have length : (m ++ [b]).length = m.length + 1 := by simp
  have cnt := hashStateAfter_cnt_toNat m
  have buf := hashStateAfter_buf_set m b
  have h : (hashStateAfter m).h = compressBlocks (m ++ [b]) (m.length / 64) iv :=
    (compressBlocks_append (by omega) _ _).symm
  have bitlen : (hashStateAfter m).bitlen + 8#64 = BitVec.ofNat 64 (8 * (m ++ [b]).length) := by
    simp [hashStateAfter, Nat.mul_add, BitVec.ofNat_add]
  by_cases full : m.length % 64 = 63
  · have blocks : (m ++ [b]).length / 64 = m.length / 64 + 1 := by omega
    have emptied : blockAt (m ++ [b]) (m.length / 64 + 1) = zeroBlock := blockAt_of_length_le (by omega)
    have count : 0#6 = BitVec.ofNat 6 (m ++ [b]).length := by
      apply BitVec.eq_of_toNat_eq
      simp only [length, BitVec.toNat_ofNat]
      omega
    rw [absorbByte_of_full b (by omega), buf, h, bitlen, count, hashStateAfter, blocks, compressBlocks, emptied]
  · have blocks : (m ++ [b]).length / 64 = m.length / 64 := by omega
    have count : (hashStateAfter m).cnt + 1#6 = BitVec.ofNat 6 (m ++ [b]).length := by
      rw [length, BitVec.ofNat_add]
      rfl
    rw [absorbByte_of_room b (by omega), buf, h, bitlen, count, hashStateAfter, blocks]

theorem absorbBytes_initHash (m : List Byte) : absorbBytes initHash m = hashStateAfter m := by
  induction m using List.reverseRecOn with
  | nil => exact hashStateAfter_nil.symm
  | append_singleton m b ih => rw [absorbBytes_append, ih, absorbBytes_cons, absorbBytes_nil, absorbByte_hashStateAfter]

/-! ### Pad is the padding of R117: it writes the last blocks of the padded message. -/

theorem zeroFrom_eq_self {b : Vector Byte 64} {lo : Nat} (h : ∀ j (hj : j < 64), lo ≤ j → b[j] = 0#8) (hi : Nat) :
    zeroFrom b lo hi = b := by
  ext j hj : 1
  rw [zeroFrom_get]
  split
  · next cleared => rw [h j hj cleared.1]
  · rfl

theorem blockAt_padMessage_of_not_last {m : List Byte} {k : Nat} (h : k + 1 < padBlocks m.length) :
    blockAt (padMessage m) k = blockAt (m ++ [0x80#8]) k :=
  blockAt_congr fun _ _ => padMessage_getD_of_front m (by omega)

theorem blockAt_padMessage_of_last {m : List Byte} {k : Nat} (h : k + 1 = padBlocks m.length) :
    blockAt (padMessage m) k = putLength (blockAt (m ++ [0x80#8]) k) (BitVec.ofNat 64 (8 * m.length)) := by
  ext j hj : 1
  rw [putLength_get, blockAt_get, blockAt_get]
  split
  · next lengthField =>
    have place : 64 * k + j = 64 * padBlocks m.length - 8 + (j - 56) := by omega
    rw [place, padMessage_getD_of_lengthField m (by omega)]
  · next front => exact padMessage_getD_of_front m (by omega)

theorem compressBlocks_padMessage (m : List Byte) :
    compressBlocks (padMessage m) (m.length / 64) iv = (hashStateAfter m).h := by
  have whole : 64 * (m.length / 64) ≤ m.length := by omega
  simp only [padMessage, List.append_assoc, compressBlocks_append whole]
  rfl

theorem pad_h_of_fits {x : HashState} (h : x.cnt.toNat + 1 ≤ 56) :
    (pad x).h = compress x.h
      (putLength (zeroFrom (x.buf.set x.cnt.toNat 0x80#8 x.cnt.isLt) (x.cnt.toNat + 1) 56) x.bitlen) := by
  rw [pad, if_neg (by omega)]

theorem pad_h_of_not_fits {x : HashState} (h : 56 < x.cnt.toNat + 1) :
    (pad x).h = compress (compress x.h (zeroFrom (x.buf.set x.cnt.toNat 0x80#8 x.cnt.isLt) (x.cnt.toNat + 1) 64))
      (putLength (zeroFrom zeroBlock 0 56) x.bitlen) := by
  rw [pad, if_pos h]

theorem sha256_eq_compressBlocks (m : List Byte) :
    sha256 m = compressBlocks (padMessage m) (padBlocks m.length) iv := rfl

/-- Pad after the bytes of `m` leaves SHA256 of `m` in H (R118): in two blocks where the length field does not fit in
the one that holds the 0x80 byte. -/
theorem pad_hashStateAfter_h (m : List Byte) : (pad (hashStateAfter m)).h = sha256 m := by
  have cnt := hashStateAfter_cnt_toNat m
  have bitlen : (hashStateAfter m).bitlen = BitVec.ofNat 64 (8 * m.length) := rfl
  have length : (m ++ [0x80#8]).length = m.length + 1 := by simp
  have markedTail : ∀ j (hj : j < 64), (hashStateAfter m).cnt.toNat + 1 ≤ j →
      (blockAt (m ++ [0x80#8]) (m.length / 64))[j] = 0#8 := fun j hj past => by
    rw [blockAt_get, List.getD_eq_default _ _ (by omega)]
  rw [sha256_eq_compressBlocks]
  rcases Nat.lt_or_ge 56 ((hashStateAfter m).cnt.toNat + 1) with long | short
  · have blocks : padBlocks m.length = m.length / 64 + 2 := by simp only [padBlocks]; omega
    have markedBlock := blockAt_padMessage_of_not_last (m := m) (k := m.length / 64) (by omega)
    have lastBlock := blockAt_padMessage_of_last (m := m) (k := m.length / 64 + 1) (by omega)
    have emptied : blockAt (m ++ [0x80#8]) (m.length / 64 + 1) = zeroBlock := blockAt_of_length_le (by omega)
    rw [pad_h_of_not_fits long, hashStateAfter_buf_set, zeroFrom_eq_self markedTail,
      zeroFrom_eq_self fun j hj _ => zeroBlock_get j hj, bitlen, blocks, compressBlocks, compressBlocks,
      compressBlocks_padMessage, markedBlock, lastBlock, emptied]
  · have blocks : padBlocks m.length = m.length / 64 + 1 := by simp only [padBlocks]; omega
    have lastBlock := blockAt_padMessage_of_last (m := m) (k := m.length / 64) (by omega)
    rw [pad_h_of_fits short, hashStateAfter_buf_set, zeroFrom_eq_self markedTail, bitlen, blocks, compressBlocks,
      compressBlocks_padMessage, lastBlock]

end Sys2Proof.Machine
end

section
/-! A message by commands (R142 to R146, R213): INIT, the DIN writes and ABSORBs of its pieces, FINAL, each run to its
completion. A command that passes the checks of R140 is latched, and completes on the state it was latched in. -/

namespace Sys2Proof.Machine

theorem runToIdle_of_exec {i : Instr} {s t : State} (h : exec i s = .next t) : runToIdle i s = some (complete t) := by
  rw [runToIdle, h]

theorem runToIdle_init {s : State} (acc : Accepting s) :
    ∃ t, runToIdle .init s = some t ∧ Accepting t ∧ t.phase = .active ∧ t.hash = initHash := by
  obtain ⟨running, idle⟩ := acc
  have latched : exec .init s = .next (latch .init 1 s) := by
    simp [exec, execInit, writeAccess, running, issueCommand, idle]
  exact ⟨_, runToIdle_of_exec latched, ⟨running, rfl⟩, rfl, rfl⟩

theorem runToIdle_wrDin {s : State} (acc : Accepting s) (v : Word) : runToIdle (.wrDin v) s = some { s with din := v } := by
  obtain ⟨running, idle⟩ := acc
  have written : exec (.wrDin v) s = .next { s with din := v } :=
    writeAccess_of_running (fun t => { t with din := v }) s running
  have nonePending : { s with din := v }.pend = none := pend_none_of_not_busy s idle
  rw [runToIdle_of_exec written, complete_of_none nonePending]

theorem runToIdle_absorb {s : State} (acc : Accepting s) (active : s.phase = .active) {nb : BitVec 2}
    (fits : s.hash.bitlen.toNat + 8 * byteCount nb ≤ bitlenMax) :
    ∃ t, runToIdle (.absorb nb) s = some t ∧ Accepting t ∧ t.phase = .active ∧
      t.hash = absorbBytes s.hash (absorbedBytes (byteCount nb) s.din) := by
  obtain ⟨running, idle⟩ := acc
  have latched : exec (.absorb nb) s = .next (latch .absorb (byteCount nb) s) := by
    simp [exec, execAbsorb, writeAccess, running, issueCommand, idle, active, tooLong, fits]
  exact ⟨_, runToIdle_of_exec latched, ⟨running, rfl⟩, active, rfl⟩

theorem runToIdle_final {s : State} (acc : Accepting s) (active : s.phase = .active) :
    ∃ t, runToIdle .final s = some t ∧ Accepting t ∧ t.phase = .done ∧ t.hash = pad s.hash := by
  obtain ⟨running, idle⟩ := acc
  have latched : exec .final s = .next (latch .final 1 s) := by
    simp [exec, execFinal, writeAccess, running, issueCommand, idle, active]
  exact ⟨_, runToIdle_of_exec latched, ⟨running, rfl⟩, rfl, rfl⟩

theorem runSequence_append (is js : List Instr) (s : State) :
    runSequence (is ++ js) s = (runSequence is s).bind (runSequence js) := by
  induction is generalizing s with
  | nil => rfl
  | cons i is ih =>
    simp only [List.cons_append, runSequence, Option.bind_assoc]
    exact Option.bind_congr fun t _ => ih t

theorem messageOf_cons (p : Piece) (ps : List Piece) :
    messageOf (p :: ps) = absorbedBytes (byteCount p.1) p.2 ++ messageOf ps := rfl

/-- The pieces of a message that fits leave the hash state of absorbing its bytes in order (R143, R150). -/
theorem runSequence_feedInstrs (ps : List Piece) {s : State} (acc : Accepting s) (active : s.phase = .active)
    (fits : s.hash.bitlen.toNat + 8 * (messageOf ps).length ≤ bitlenMax) :
    ∃ t, runSequence (feedInstrs ps) s = some t ∧ Accepting t ∧ t.phase = .active ∧
      t.hash = absorbBytes s.hash (messageOf ps) := by
  induction ps generalizing s with
  | nil => exact ⟨s, rfl, acc, active, rfl⟩
  | cons p ps ih =>
    obtain ⟨nb, word⟩ := p
    have taken : (absorbedBytes (byteCount nb) word).length = byteCount nb := absorbedBytes_length _ _ (byteCount_le nb)
    rw [messageOf_cons, List.length_append, taken] at fits
    obtain ⟨t, ranPiece, accT, activeT, hashT⟩ :=
      runToIdle_absorb (s := { s with din := word }) acc active (nb := nb) (by simp only; omega)
    have bitlenT : t.hash.bitlen.toNat = s.hash.bitlen.toNat + 8 * byteCount nb := by
      rw [hashT, absorbBytes_bitlen, taken]
      simp only [BitVec.toNat_add, BitVec.toNat_ofNat, bitlenMax] at *
      omega
    obtain ⟨u, ranRest, accU, activeU, hashU⟩ := ih accT activeT (by omega)
    refine ⟨u, ?_, accU, activeU, ?_⟩
    · change runSequence (.wrDin word :: .absorb nb :: feedInstrs ps) s = some u
      simp only [runSequence, runToIdle_wrDin acc, Option.bind_some, ranPiece, ranRest]
    · rw [hashU, hashT, messageOf_cons, absorbBytes_append]

/-- Settles O49: the hash state after the message's bytes is `hashStateAfter`, which Pad takes to the digest. -/
theorem digestIsSha256OfTheMessage : Obligations.DigestIsSha256OfTheMessage := by
  intro ps s acc fits
  obtain ⟨t₀, ranInit, acc₀, active₀, hash₀⟩ := runToIdle_init acc
  have fits₀ : t₀.hash.bitlen.toNat + 8 * (messageOf ps).length ≤ bitlenMax := by
    simp only [hash₀, initHash, BitVec.toNat_ofNat, bitlenMax]
    omega
  obtain ⟨t₁, ranFeed, acc₁, active₁, hash₁⟩ := runSequence_feedInstrs ps acc₀ active₀ fits₀
  obtain ⟨t, ranFinal, ⟨running, idle⟩, done, hash⟩ := runToIdle_final acc₁ active₁
  rw [hash₁, hash₀, absorbBytes_initHash] at hash
  have digest : t.hash.h = sha256 (messageOf ps) := by rw [hash, pad_hashStateAfter_h]
  refine ⟨t, ?_, done, idle, digest, ?_, fun i => ?_⟩
  · simp [hashInstrs, runSequence, runSequence_append, ranInit, ranFeed, ranFinal]
  · simp only [hash, pad_bitlen, hashStateAfter, BitVec.toNat_ofNat]
    omega
  · change readAccess (digestWord i t) t = _
    simp [digestWord, done, running, digest]

end Sys2Proof.Machine
end

section
/-! The CMD write (R140, R164, R187): what `issueCommand` and `issue` answer, case by case in the order of the checks,
and the command rows that run them. -/

namespace Sys2Proof.Machine

theorem issueCommand_of_busy {s : State} (c : Command) (busy : s.busy = true) : issueCommand c s = raise .busy s := by
  simp [issueCommand, busy]

theorem issueCommand_nop {s : State} (idle : s.busy = false) : issueCommand .nop s = s := by
  simp [issueCommand, idle]

theorem issueCommand_init {s : State} (idle : s.busy = false) : issueCommand .init s = latch .init 1 s := by
  simp [issueCommand, idle]

theorem issueCommand_absorb_of_not_active {s : State} (nb : BitVec 2) (idle : s.busy = false)
    (phase : s.phase ≠ .active) : issueCommand (.absorb nb) s = raise .seq s := by
  simp [issueCommand, idle, phase]

theorem issueCommand_absorb_of_overlong {s : State} {nb : BitVec 2} (idle : s.busy = false) (active : s.phase = .active)
    (overlong : s.hash.bitlen.toNat + 8 * byteCount nb > bitlenMax) : issueCommand (.absorb nb) s = raise .len s := by
  simp [issueCommand, idle, active, tooLong, overlong]

theorem issueCommand_absorb_of_fits {s : State} {nb : BitVec 2} (idle : s.busy = false) (active : s.phase = .active)
    (fits : s.hash.bitlen.toNat + 8 * byteCount nb ≤ bitlenMax) :
    issueCommand (.absorb nb) s = latch .absorb (byteCount nb) s := by
  simp [issueCommand, idle, active, tooLong, fits]

theorem issueCommand_final_of_not_active {s : State} (idle : s.busy = false) (phase : s.phase ≠ .active) :
    issueCommand .final s = raise .seq s := by
  simp [issueCommand, idle, phase]

theorem issueCommand_final_of_active {s : State} (idle : s.busy = false) (active : s.phase = .active) :
    issueCommand .final s = latch .final 1 s := by
  simp [issueCommand, idle, active]

theorem issue_of_busy {s : State} (v : Word) (busy : s.busy = true) : issue v s = raise .busy s := by
  simp [issue, busy]

theorem issue_of_reserved {s : State} {v : Word} (idle : s.busy = false) (reserved : decodeCmdw v = none) :
    issue v s = raise .cmd s := by
  simp [issue, idle, reserved]

theorem issue_of_decodes {s : State} {v : Word} {c : Command} (idle : s.busy = false)
    (decodes : decodeCmdw v = some c) : issue v s = issueCommand c s := by
  simp [issue, idle, decodes]

/-- Out of reset the row of a command is its issue (R88). -/
theorem exec_instr_of_issueCommand {c : Command} {s t : State} (running : s.rstN = true)
    (issued : issueCommand c s = t) : exec c.instr s = .next t := by
  rw [← issued]
  cases c with
  | nop => exact writeAccess_of_running _ s running
  | init => exact writeAccess_of_running _ s running
  | absorb nb => exact writeAccess_of_running _ s running
  | final => exact writeAccess_of_running _ s running

theorem exec_wrCmd {s : State} (v : Word) (running : s.rstN = true) : exec (.wrCmd v) s = .next (issue v s) :=
  writeAccess_of_running (issue v) s running

theorem exec_instr_of_busy {s : State} (c : Command) (running : s.rstN = true) (busy : s.busy = true) :
    exec c.instr s = .next { s with err := { s.err with busy := true } } :=
  exec_instr_of_issueCommand running (issueCommand_of_busy c busy)

theorem decode_encodeCommand (c : Command) : decode (.cmdw (encodeCommand c)) = .ok c.instr := by
  simp [decode]

/-- Settles O17: a word is checked as `issue` checks it, and one that decodes as `issueCommand` checks its command. -/
theorem cmdWriteIssuesInTheOrderOfTheChecks : Obligations.CmdWriteIssuesInTheOrderOfTheChecks := by
  refine fun v s => ⟨rfl, fun running => ⟨issue v s, exec_wrCmd v running, ?_⟩⟩
  cases busy : s.busy with
  | true => exact issue_of_busy v busy
  | false =>
    rw [if_neg Bool.false_ne_true]
    cases decodes : decodeCmdw v with
    | none => exact issue_of_reserved busy decodes
    | some c =>
      rw [issue_of_decodes busy decodes]
      cases c with
      | nop => exact issueCommand_nop busy
      | init => rw [issueCommand_init busy]; rfl
      | absorb nb =>
        dsimp only
        split_ifs with phase overlong
        · exact issueCommand_absorb_of_not_active nb busy phase
        · exact issueCommand_absorb_of_overlong busy (not_not.mp phase) overlong
        · rw [issueCommand_absorb_of_fits busy (not_not.mp phase) (not_lt.mp overlong)]; rfl
      | final =>
        dsimp only
        split_ifs with phase
        · exact issueCommand_final_of_not_active busy phase
        · rw [issueCommand_final_of_active busy (not_not.mp phase)]; rfl

/-- Settles O10: NOP passes the one check it has and is not latched. -/
theorem nopHasNoEffect : Obligations.NopHasNoEffect :=
  ⟨decode_encodeCommand .nop, fun _ =>
    ⟨fun ⟨running, idle⟩ => exec_instr_of_issueCommand (c := .nop) running (issueCommand_nop idle),
      exec_instr_of_busy .nop⟩⟩

/-- Settles O11: the phase is not checked; the latched command completes with `initHash`, which is R109's words and an
empty buffer. -/
theorem initRestartsTheComputation : Obligations.InitRestartsTheComputation :=
  ⟨decode_encodeCommand .init, fun s =>
    ⟨fun ⟨running, idle⟩ =>
      ⟨latch .init 1 s, exec_instr_of_issueCommand (c := .init) running (issueCommand_init idle), rfl, rfl, rfl⟩,
      exec_instr_of_busy .init⟩⟩

end Sys2Proof.Machine
end

section
/-! ABSORB and AbsorbByte (R143, R144): the bytes of the data word, and what absorbing them leaves in each field. -/

namespace Sys2Proof.Machine

/-- The lanes of an ABSORB data word (R85) lie as the bytes of a digest word do (R56). -/
theorem lanes_eq_map_wordByte (d : Word) : lanes d = (List.range 4).map (wordByte d) := rfl

theorem absorbedBytes_eq_map_wordByte {n : Nat} (hn : n ≤ 4) (d : Word) :
    absorbedBytes n d = (List.range n).map (wordByte d) := by
  rw [absorbedBytes, lanes_eq_map_wordByte, ← List.map_take, List.take_range, Nat.min_eq_left hn]

theorem absorbBytes_absorbedBytes {n : Nat} (hn : n ≤ 4) (x : HashState) (d : Word) :
    absorbBytes x (absorbedBytes n d) = (List.range n).foldl (fun y j => absorbByte y (wordByte d j)) x := by
  rw [absorbBytes, absorbedBytes_eq_map_wordByte hn, List.foldl_map]

theorem absorbBytes_bitlen_toNat {x : HashState} {bs : List Byte}
    (fits : x.bitlen.toNat + 8 * bs.length ≤ bitlenMax) :
    (absorbBytes x bs).bitlen.toNat = x.bitlen.toNat + 8 * bs.length := by
  simp only [absorbBytes_bitlen, BitVec.toNat_add, BitVec.toNat_ofNat, bitlenMax] at *
  omega

/-- Settles O12: the latched ABSORB completes with `absorbBytes` of the first lanes of its copy of DIN. -/
theorem absorbTakesItsBytes : Obligations.AbsorbTakesItsBytes := by
  refine ⟨⟨decode_encodeCommand (.absorb 0), decode_encodeCommand (.absorb 1), decode_encodeCommand (.absorb 2),
    decode_encodeCommand (.absorb 3)⟩, fun nb s running => ⟨exec_instr_of_busy (.absorb nb) running, ?_, ?_, ?_⟩⟩
  · exact fun idle phase =>
      exec_instr_of_issueCommand (c := .absorb nb) running (issueCommand_absorb_of_not_active nb idle phase)
  · exact fun idle active overlong =>
      exec_instr_of_issueCommand (c := .absorb nb) running (issueCommand_absorb_of_overlong idle active overlong)
  · intro idle active fits
    have taken : (absorbedBytes (byteCount nb) s.din).length = byteCount nb := absorbedBytes_length _ _ (byteCount_le nb)
    have completed : (complete (latch .absorb (byteCount nb) s)).hash =
        absorbBytes s.hash (absorbedBytes (byteCount nb) s.din) := rfl
    refine ⟨latch .absorb (byteCount nb) s,
      exec_instr_of_issueCommand (c := .absorb nb) running (issueCommand_absorb_of_fits idle active fits), rfl,
      ?_, ?_, ?_, rfl⟩
    · exact completed.trans (absorbBytes_absorbedBytes (byteCount_le nb) s.hash s.din)
    · rw [completed, absorbBytes_cnt, taken]
      rfl
    · rw [completed, absorbBytes_bitlen_toNat (by rwa [taken]), taken]
      rfl

/-- Settles O13: by whether the buffer has room for one more byte after this one. -/
theorem absorbByteFillsTheBlock : Obligations.AbsorbByteFillsTheBlock := by
  refine fun x b => ⟨absorbByte_bitlen x b, fun room => ?_, fun full => ?_⟩
  · have cnt := absorbByte_cnt x b
    rw [Nat.mod_eq_of_lt (by omega)] at cnt
    refine ⟨by rw [absorbByte_of_room b room], cnt, fun j => ?_⟩
    simp [absorbByte_of_room b room, Vector.getElem_set, eq_comm]
  · have block : x.buf.set x.cnt.toNat b x.cnt.isLt = Vector.ofFn fun j => if j.val = 63 then b else x.buf[j.val] := by
      ext j hj : 1
      simp [Vector.getElem_set, full, eq_comm]
    rw [absorbByte_of_full b full, block]
    exact ⟨rfl, rfl, fun j => zeroBlock_get j j.isLt⟩

end Sys2Proof.Machine
end

section
/-! FINAL and Pad (R145, R146): the blocks that Pad compresses, byte by byte. -/

namespace Sys2Proof.Machine

/-- The buffer with the 0x80 byte after its bytes and zeros from there up to `hi`, in the order of the loops of R146. -/
theorem markedBlock_get (x : HashState) (hi : Nat) {j : Nat} (hj : j < 64) :
    (zeroFrom (x.buf.set x.cnt.toNat 0x80#8 x.cnt.isLt) (x.cnt.toNat + 1) hi)[j] =
      if j < x.cnt.toNat then x.buf[j] else if j = x.cnt.toNat then 0x80#8 else if j < hi then 0#8 else x.buf[j] := by
  rw [zeroFrom_get, Vector.getElem_set]
  rcases Nat.lt_trichotomy j x.cnt.toNat with buffered | mark | past
  · simp [buffered, buffered.ne', show ¬ x.cnt.toNat + 1 ≤ j by omega]
  · simp [mark]
  · simp [past.ne, past.ne', past.not_gt, Nat.succ_le_iff.mpr past]

theorem putLength_markedBlock {x : HashState} (fits : x.cnt.toNat ≤ 55) :
    putLength (zeroFrom (x.buf.set x.cnt.toNat 0x80#8 x.cnt.isLt) (x.cnt.toNat + 1) 56) x.bitlen =
      Vector.ofFn fun j =>
        if j.val < x.cnt.toNat then x.buf[j.val] else if j.val = x.cnt.toNat then 0x80#8
        else if j.val < 56 then 0#8 else x.bitlen.extractLsb' (56 - 8 * (j.val - 56)) 8 := by
  ext j hj : 1
  simp only [putLength_get, markedBlock_get, Vector.getElem_ofFn]
  rcases Nat.lt_or_ge j 56 with front | lengthField
  · simp only [if_pos front, if_neg front.not_ge]
  · rw [if_pos lengthField, if_neg (by omega), if_neg (by omega), if_neg lengthField.not_gt, be64Byte]

theorem markedBlock_eq_ofFn (x : HashState) :
    zeroFrom (x.buf.set x.cnt.toNat 0x80#8 x.cnt.isLt) (x.cnt.toNat + 1) 64 =
      Vector.ofFn fun j =>
        if j.val < x.cnt.toNat then x.buf[j.val] else if j.val = x.cnt.toNat then 0x80#8 else 0#8 := by
  ext j hj : 1
  rw [markedBlock_get, Vector.getElem_ofFn, if_pos hj]

theorem putLength_zeroBlock (len : BitVec 64) :
    putLength (zeroFrom zeroBlock 0 56) len =
      Vector.ofFn fun j => if j.val < 56 then 0#8 else len.extractLsb' (56 - 8 * (j.val - 56)) 8 := by
  ext j hj : 1
  rw [putLength_get, zeroFrom_eq_self fun _ _ _ => zeroBlock_get _ _, zeroBlock_get, Vector.getElem_ofFn]
  rcases Nat.lt_or_ge j 56 with front | lengthField
  · rw [if_pos front, if_neg front.not_ge]
  · rw [if_pos lengthField, if_neg lengthField.not_gt, be64Byte]

/-- Settles O15: by whether the length field fits behind the 0x80 byte. -/
theorem padCompressesOneOrTwoBlocks : Obligations.PadCompressesOneOrTwoBlocks := by
  refine fun x => ⟨?_, pad_cnt x, fun j => by rw [pad_buf, zeroBlock_get], pad_bitlen x⟩
  split_ifs with fits
  · rw [pad_h_of_fits (by omega), putLength_markedBlock fits]
  · rw [pad_h_of_not_fits (by omega), markedBlock_eq_ofFn, putLength_zeroBlock]

/-- Settles O14: the latched FINAL completes with Pad, whatever the hash state. -/
theorem finalPadsAndGoesToDone : Obligations.FinalPadsAndGoesToDone := by
  refine ⟨decode_encodeCommand .final, fun s running => ⟨exec_instr_of_busy .final running, ?_, ?_⟩⟩
  · exact fun idle phase =>
      exec_instr_of_issueCommand (c := .final) running (issueCommand_final_of_not_active idle phase)
  · exact fun idle active =>
      ⟨latch .final 1 s, exec_instr_of_issueCommand (c := .final) running (issueCommand_final_of_active idle active),
        rfl, rfl, pad_cnt s.hash, fun j => by rw [pad_buf, zeroBlock_get], pad_bitlen s.hash⟩

end Sys2Proof.Machine
end

section
/-! Split invariance (R150): an accepted feed leaves `absorbBytes` of its bytes, which the division among commands does
not enter. -/

namespace Sys2Proof.Machine

/-- Settles O48: both runs absorb the one message from the one state, and FINAL pads what they leave. -/
theorem splitInvariance : Obligations.SplitInvariance := by
  intro ps qs s t u active acc fits same ranT ranU
  obtain ⟨t₀, ranT₀, accT, activeT, hashT⟩ := runSequence_feedInstrs ps acc active fits
  obtain ⟨u₀, ranU₀, accU, activeU, hashU⟩ := runSequence_feedInstrs qs acc active (same ▸ fits)
  cases ranT.symm.trans ranT₀
  cases ranU.symm.trans ranU₀
  have hash : t.hash = u.hash := by rw [hashT, hashU, same]
  refine ⟨hash, fun t' u' ranT' ranU' => ?_⟩
  obtain ⟨t₁, ranT₁, _, doneT, hashT'⟩ := runToIdle_final accT activeT
  obtain ⟨u₁, ranU₁, _, doneU, hashU'⟩ := runToIdle_final accU activeU
  cases ranT'.symm.trans ranT₁
  cases ranU'.symm.trans ranU₁
  exact ⟨doneT, doneU, by rw [hashT', hashU', hash]⟩

end Sys2Proof.Machine
end

section
/-! Register accesses (42_bus_access.md): the bus operations that carry an operand field in their number, an access out
of reset, and a write that no register takes. -/

namespace Sys2Proof.Machine

theorem decode_rdRsvd (low : BitVec 1) (w : Word) : decode (.busop (0b0011#4 ++ low) w) = .ok (.rdRsvd low) := by
  rcases BitVec.eq_zero_or_eq_one low with rfl | rfl <;> rfl

theorem decode_wrRsvd (low : BitVec 1) (v : Word) : decode (.busop (0b1011#4 ++ low) v) = .ok (.wrRsvd low v) := by
  rcases BitVec.eq_zero_or_eq_one low with rfl | rfl <;> rfl

theorem decode_wrBitlen (hi : BitVec 1) (v : Word) : decode (.busop (0b1010#4 ++ hi) v) = .ok (.wrBitlen hi v) := by
  rcases BitVec.eq_zero_or_eq_one hi with rfl | rfl <;> rfl

theorem decode_rdDigest (i : BitVec 3) (w : Word) : decode (.busop (0b01#2 ++ i) w) = .ok (.rdDigest i) := by
  match i with
  | 0 | 1 | 2 | 3 | 4 | 5 | 6 | 7 => rfl

theorem decode_wrDigest (i : BitVec 3) (v : Word) : decode (.busop (0b11#2 ++ i) v) = .ok (.wrDigest i v) := by
  match i with
  | 0 | 1 | 2 | 3 | 4 | 5 | 6 | 7 => rfl

theorem readAccess_of_running {s : State} (v : Word) (running : s.rstN = true) :
    readAccess v s = .next { s with rdata := v } := by
  rw [readAccess_next, if_pos running]

/-- A write that no register takes changes nothing, in reset (R211) and out of it. -/
theorem writeAccess_ignored (s : State) : writeAccess (fun t => t) s = .next s := by
  rw [writeAccess, ite_self]

/-- Settles O25: ID reads `idValue`. -/
theorem readOfId : Obligations.ReadOfId :=
  ⟨fun _ => rfl, fun _ running => readAccess_of_running idValue running⟩

/-- Settles O26: CMD holds nothing to read. -/
theorem readOfCmd : Obligations.ReadOfCmd :=
  ⟨fun _ => rfl, fun _ running => readAccess_of_running 0#32 running⟩

/-- Settles O27: the low bit of the bus operation says which of the two words it is, and neither access looks at it. -/
theorem reservedWordsReadZeroAndIgnoreWrites : Obligations.ReservedWordsReadZeroAndIgnoreWrites :=
  ⟨fun low v => ⟨decode_rdRsvd low v, decode_wrRsvd low v⟩,
    fun _ _ s running => ⟨readAccess_of_running 0#32 running, writeAccess_ignored s⟩⟩

/-- Settles O31: DIGESTi reads `digestWord`, which asks for the phase alone. -/
theorem readOfDigest : Obligations.ReadOfDigest :=
  ⟨decode_rdDigest, fun i s running => readAccess_of_running (digestWord i s) running⟩

/-- Settles O32: the three rows are writes that no register takes. -/
theorem writesToReadOnlyRegistersAreIgnored : Obligations.WritesToReadOnlyRegistersAreIgnored :=
  ⟨fun v => ⟨rfl, fun hi => decode_wrBitlen hi v, fun i => decode_wrDigest i v⟩,
    fun _ s => ⟨writeAccess_ignored s, fun _ => writeAccess_ignored s, fun _ => writeAccess_ignored s⟩⟩

/-! ### DIN (R27, R167, R168): only its own write changes it. -/

/-- Settles O34: the write neither asks for the phase nor for BUSY. -/
theorem writeOfDin : Obligations.WriteOfDin :=
  ⟨fun _ => rfl, fun v s running => writeAccess_of_running (fun t => { t with din := v }) s running⟩

@[simp] theorem issueCommand_din (c : Command) (s : State) : (issueCommand c s).din = s.din := by
  rcases issueCommand_cases c s with unchanged | ⟨e, raised⟩ | ⟨op, n, _, latched, _⟩
  · rw [unchanged]
  · rw [raised, raise_din]
  · rw [latched, latch_din]

@[simp] theorem complete_din (s : State) : (complete s).din = s.din := by
  rw [complete_frame]

/-- Settles O29: neither the issue of a command nor a completion writes DIN. -/
theorem readOfDin : Obligations.ReadOfDin := by
  refine ⟨fun _ => rfl, fun s => ⟨fun running => readAccess_of_running s.din running, fun nb => ?_⟩⟩
  cases level : s.rstN with
  | false => exact ⟨s, writeAccess_of_reset _ s level, rfl, complete_din s⟩
  | true =>
    exact ⟨issueCommand (.absorb nb) s, writeAccess_of_running _ s level, issueCommand_din _ s,
      by rw [complete_din, issueCommand_din]⟩

end Sys2Proof.Machine
end

section
/-! STATUS (R37, R165, R166): the word bit by bit, and the write that clears errors as a mask on it. -/

namespace Sys2Proof.Machine

/-- The bits of STATUS in the order of R37, from bit 0 on; CNT has no bit past its six, which is the zero extension. -/
def statusBit (s : State) : Nat → Bool
  | 0 => (phaseBits s.phase).getLsbD 0
  | 1 => (phaseBits s.phase).getLsbD 1
  | 2 => s.busy
  | 3 => s.err.seq
  | 4 => s.err.cmd
  | 5 => s.err.busy
  | 6 => s.err.len
  | 7 => false
  | j + 8 => s.hash.cnt.getLsbD j

theorem statusWord_getLsbD (s : State) (i : Nat) : (statusWord s).getLsbD i = statusBit s i := by
  simp only [statusWord, BitVec.getLsbD_setWidth, BitVec.getLsbD_append]
  match i with
  | 0 | 1 | 2 | 3 | 4 | 5 | 6 | 7 => simp [statusBit]
  | j + 8 =>
    have inWord : s.hash.cnt.getLsbD j = true → j + 8 < 32 := fun set => by
      have : j < 6 := BitVec.lt_of_getLsbD set
      omega
    simpa [statusBit] using inWord

/-- A field of STATUS is read off the bits it covers. -/
theorem statusWord_extractLsb' {s : State} {start len : Nat} {field : BitVec len}
    (bits : ∀ i < len, statusBit s (start + i) = field.getLsbD i) :
    (statusWord s).extractLsb' start len = field := by
  apply BitVec.eq_of_getLsbD_eq
  intro i hi
  rw [BitVec.getLsbD_extractLsb', statusWord_getLsbD, bits i hi, decide_eq_true hi, Bool.true_and]

theorem statusWord_phase (s : State) : (statusWord s).extractLsb' 0 2 = phaseBits s.phase :=
  statusWord_extractLsb' fun i _ => match i with
    | 0 | 1 => rfl

theorem statusWord_cnt (s : State) : (statusWord s).extractLsb' 8 6 = s.hash.cnt :=
  statusWord_extractLsb' fun i _ => by rw [Nat.add_comm, statusBit]

theorem statusWord_zeros (s : State) : (statusWord s).extractLsb' 14 18 = 0#18 :=
  statusWord_extractLsb' fun i _ => by
    rw [show 14 + i = 6 + i + 8 by omega, statusBit, BitVec.getLsbD_of_ge _ _ (by omega), BitVec.getLsbD_zero]

/-- Settles O28: STATUS reads `statusWord`, each of whose fields is a run of the bits of R37. -/
theorem readOfStatusShowsEveryField : Obligations.ReadOfStatusShowsEveryField := by
  refine ⟨fun _ => rfl, fun s running => ⟨statusWord s, readAccess_of_running _ running, ?_,
    statusWord_getLsbD s 2, statusWord_getLsbD s 3, statusWord_getLsbD s 4, statusWord_getLsbD s 5,
    statusWord_getLsbD s 6, statusWord_getLsbD s 7, statusWord_cnt s, statusWord_zeros s⟩⟩
  rw [statusWord_phase]
  cases s.phase <;> rfl

/-- R166: 0x78 is the mask of the four error bits; a STATUS write reaches no other bit. -/
theorem statusWord_clearErrors (v : Word) (s : State) :
    statusWord (clearErrors v s) = statusWord s &&& ~~~(v &&& 0x00000078#32) := by
  apply BitVec.eq_of_getLsbD_eq
  intro i hi
  simp only [BitVec.getLsbD_and, BitVec.getLsbD_not, statusWord_getLsbD, decide_eq_true hi, Bool.true_and]
  match i with
  | 0 | 1 | 2 | 3 | 4 | 5 | 6 | 7 => simp [statusBit, State.busy]
  | j + 8 =>
    have outsideMask : (0x00000078#32).getLsbD (j + 8) = false := by
      simp [BitVec.getLsbD_ofNat, Nat.testBit_add]
    rw [outsideMask, Bool.and_false, Bool.not_false, Bool.and_true]
    rfl

/-- Settles O33: the write is `clearErrors`, which keeps every element but the error bits. -/
theorem statusWriteClearsWrittenOnes : Obligations.StatusWriteClearsWrittenOnes :=
  ⟨fun _ => rfl, fun v s running => ⟨clearErrors v s, writeAccess_of_running _ s running, rfl,
    statusWord_clearErrors v s, rfl, rfl, rfl, rfl⟩⟩

end Sys2Proof.Machine
end

section
/-! Errors (60_exceptions.md R183 to R186): which instructions write CMD (R88), and the one error bit that a refused CMD
write sets. -/

namespace Sys2Proof.Machine

/-- A command's issue is the issue of its command word (R88, R140). -/
theorem issue_encodeCommand (c : Command) (s : State) : issue (encodeCommand c) s = issueCommand c s := by
  cases busy : s.busy with
  | true => rw [issue_of_busy _ busy, issueCommand_of_busy c busy]
  | false => exact issue_of_decodes busy (decodeCmdw_encodeCommand c)

theorem eq_instr_or_wrCmd_of_cmdWordOf {i : Instr} {v : Word} (word : cmdWordOf i = some v) :
    (∃ c : Command, i = c.instr ∧ v = encodeCommand c) ∨ i = .wrCmd v := by
  cases i with
  | nop => cases word; exact .inl ⟨.nop, rfl, rfl⟩
  | init => cases word; exact .inl ⟨.init, rfl, rfl⟩
  | absorb nb => cases word; exact .inl ⟨.absorb nb, rfl, rfl⟩
  | final => cases word; exact .inl ⟨.final, rfl, rfl⟩
  | wrCmd w => cases word; exact .inr rfl
  | _ => cases word

theorem exec_instr_eq_writeAccess (c : Command) (s : State) : exec c.instr s = writeAccess (issueCommand c) s := by
  cases c <;> rfl

/-- R88: an instruction that writes `v` to CMD is the write that issues `v`, in every state. -/
theorem exec_of_cmdWordOf {i : Instr} {v : Word} (word : cmdWordOf i = some v) (s : State) :
    exec i s = writeAccess (issue v) s := by
  rcases eq_instr_or_wrCmd_of_cmdWordOf word with ⟨c, rfl, rfl⟩ | rfl
  · rw [exec_instr_eq_writeAccess, funext (issue_encodeCommand c)]
  · rfl

theorem exec_of_issue {i : Instr} {v : Word} {s t : State} (word : cmdWordOf i = some v) (running : s.rstN = true)
    (issued : issue v s = t) : exec i s = .next t := by
  rw [exec_of_cmdWordOf word, writeAccess_of_running _ s running, issued]

/-- Settles O19: BUSY is the first check of `issue`, made before the word is decoded. -/
theorem busyWriteSetsOnlyErrBusy : Obligations.BusyWriteSetsOnlyErrBusy :=
  fun _ v _ word running busy => exec_of_issue word running (issue_of_busy v busy)

/-- Settles O20: with nothing pending, decoding is the check that a reserved word fails. -/
theorem reservedWriteSetsOnlyErrCmd : Obligations.ReservedWriteSetsOnlyErrCmd :=
  fun v _ ⟨running, idle⟩ reserved => exec_of_issue (i := .wrCmd v) rfl running (issue_of_reserved idle reserved)

/-- Settles O21: ABSORB and FINAL each ask for the phase before anything else. -/
theorem outOfSequenceWriteSetsOnlyErrSeq : Obligations.OutOfSequenceWriteSetsOnlyErrSeq := by
  rintro i v s word ⟨running, idle⟩ phase (⟨nb, decodes⟩ | decodes) <;> apply exec_of_issue word running
  · exact (issue_of_decodes idle decodes).trans (issueCommand_absorb_of_not_active nb idle phase)
  · exact (issue_of_decodes idle decodes).trans (issueCommand_final_of_not_active idle phase)

/-- Settles O22: in ACTIVE the length is the one check left to an ABSORB. -/
theorem overlongWriteSetsOnlyErrLen : Obligations.OverlongWriteSetsOnlyErrLen :=
  fun _ _ _ _ word ⟨running, idle⟩ active decodes overlong => exec_of_issue word running
    ((issue_of_decodes idle decodes).trans (issueCommand_absorb_of_overlong idle active overlong))

end Sys2Proof.Machine
end

section
/-! The error bits (R188): only a STATUS write of 1 takes one back to 0, and nothing but STATUS looks at them. -/

namespace Sys2Proof.Machine

/-- What an instruction is to the engine (R88, 42_bus_access.md): a read, a CMD write, one of the two other writes that
a register takes, or a write that none takes. -/
inductive Access (i : Instr) : Prop where
  | read (value : State → Word) (h : ∀ s, exec i s = readAccess (value s) s)
  | cmdWrite (v : Word) (word : cmdWordOf i = some v)
  | statusWrite (v : Word) (h : i = .wrStatus v)
  | dinWrite (v : Word) (h : ∀ s, exec i s = writeAccess (fun t => { t with din := v }) s)
  | ignored (h : ∀ s, exec i s = .next s)

theorem access_cases (i : Instr) : Access i := by
  cases i with
  | nop | init | absorb nb | final | wrCmd v => exact .cmdWrite _ rfl
  | rdId | rdCmd | rdStatus | rdDin | rdBitlenLo | rdBitlenHi | rdRsvd low | rdDigest k =>
    exact .read _ fun _ => rfl
  | wrStatus v => exact .statusWrite v rfl
  | wrDin v => exact .dinWrite v fun _ => rfl
  | wrId v | wrBitlen hi v | wrRsvd low v | wrDigest k v => exact .ignored writeAccess_ignored

/-! ### An error bit stays until a STATUS write of 1 to it. -/

theorem errorBit_setError (e raised : ErrorKind) (b : Errors) :
    errorBit e (setError raised b) = (decide (e = raised) || errorBit e b) := by
  cases raised <;> cases e <;> rfl

theorem errorBit_clearErrors (e : ErrorKind) (v : Word) (s : State) :
    errorBit e (clearErrors v s).err = (errorBit e s.err && !v.getLsbD (errorCode e)) := by
  cases e <;> rfl

theorem errorBit_issue {e : ErrorKind} {s : State} (set : errorBit e s.err = true) (v : Word) :
    errorBit e (issue v s).err = true := by
  rcases issue_cases v s with unchanged | ⟨raised, h⟩ | ⟨op, n, _, latched, _⟩
  · rwa [unchanged]
  · rw [h, raise_err, errorBit_setError, set, Bool.or_true]
  · rwa [latched, latch_err]

theorem eq_or_eq_of_writeAccess {f : State → State} {s t : State} (h : writeAccess f s = .next t) : t = s ∨ t = f s := by
  cases level : s.rstN with
  | false => rw [writeAccess_of_reset f s level] at h; cases h; exact .inl rfl
  | true => rw [writeAccess_of_running f s level] at h; cases h; exact .inr rfl

theorem errorBit_exec {i : Instr} {s t : State} {e : ErrorKind} (next : exec i s = .next t)
    (set : errorBit e s.err = true) :
    errorBit e t.err = true ∨ ∃ v : Word, i = .wrStatus v ∧ v.getLsbD (errorCode e) = true := by
  cases access_cases i with
  | read value h => rw [h, readAccess_next] at next; cases next; exact .inl set
  | cmdWrite v word =>
    rw [exec_of_cmdWordOf word] at next
    obtain rfl | rfl := eq_or_eq_of_writeAccess next
    · exact .inl set
    · exact .inl (errorBit_issue set v)
  | statusWrite v h =>
    subst h
    obtain rfl | rfl := eq_or_eq_of_writeAccess next
    · exact .inl set
    · cases written : v.getLsbD (errorCode e) with
      | false => exact .inl (by rw [errorBit_clearErrors, set, written]; rfl)
      | true => exact .inr ⟨v, rfl, written⟩
  | dinWrite v h =>
    rw [h] at next
    obtain rfl | rfl := eq_or_eq_of_writeAccess next <;> exact .inl set
  | ignored h => rw [h] at next; cases next; exact .inl set

/-! ### An error bit blocks nothing. -/

@[simp] theorem complete_err (s : State) : (complete s).err = s.err := by
  rw [complete_frame]

theorem complete_withErrors (s : State) (b : Errors) : complete { s with err := b } = { complete s with err := b } := by
  obtain ⟨_, _, pend, _⟩ := s
  cases pend with
  | none => rfl
  | some p =>
    obtain ⟨op, n, d⟩ := p
    cases op <;> rfl

/-- The two states differ in the error bits and in `rdata` at most. -/
def SameButErrors (t t' : State) : Prop := t' = { t with err := t'.err, rdata := t'.rdata }

theorem SameButErrors.ite {c : Prop} [Decidable c] {t t' u u' : State} (h : SameButErrors t t')
    (h' : SameButErrors u u') : SameButErrors (if c then t else u) (if c then t' else u') := by
  split
  · exact h
  · exact h'

theorem sameButErrors_issueCommand (c : Command) (s : State) (b : Errors) :
    SameButErrors (issueCommand c s) (issueCommand c { s with err := b }) := by
  refine .ite rfl ?_
  cases c with
  | nop => rfl
  | init => rfl
  | absorb nb => exact .ite rfl (.ite rfl rfl)
  | final => exact .ite rfl rfl

theorem sameButErrors_issue (v : Word) (s : State) (b : Errors) :
    SameButErrors (issue v s) (issue v { s with err := b }) := by
  refine .ite rfl ?_
  cases decodeCmdw v with
  | none => rfl
  | some c => exact sameButErrors_issueCommand c s b

theorem sameButErrors_writeAccess {f : State → State} {s : State} {b : Errors}
    (h : SameButErrors (f s) (f { s with err := b })) :
    ∃ t t', writeAccess f s = .next t ∧ writeAccess f { s with err := b } = .next t' ∧ SameButErrors t t' :=
  ⟨_, _, rfl, rfl, .ite h rfl⟩

theorem sameButErrors_exec (i : Instr) (s : State) (b : Errors) :
    ∃ t t', exec i s = .next t ∧ exec i { s with err := b } = .next t' ∧ SameButErrors t t' := by
  cases access_cases i with
  | read value h => exact ⟨_, _, h s, h _, rfl⟩
  | cmdWrite v word =>
    simp only [exec_of_cmdWordOf word]
    exact sameButErrors_writeAccess (sameButErrors_issue v s b)
  | statusWrite v h => subst h; exact sameButErrors_writeAccess (f := clearErrors v) rfl
  | dinWrite v h =>
    simp only [h]
    exact sameButErrors_writeAccess rfl
  | ignored h => exact ⟨_, _, h s, h _, rfl⟩

/-- Settles O23: among the accesses only the STATUS write clears a bit, and no check of a CMD write reads one. -/
theorem errorBitsPersistAndNeverBlock : Obligations.ErrorBitsPersistAndNeverBlock :=
  ⟨fun _ _ _ _ => errorBit_exec, complete_err, complete_withErrors, sameButErrors_exec⟩

end Sys2Proof.Machine
end

section
/-! Encoding and decoding (30_encoding.md R80 to R86): each of `encode` and `decode` undoes the other. A bus operation
is its WE bit in front of its word index, so its two halves reduce to tables over the index. -/

namespace Sys2Proof.Machine

@[simp] theorem encode_instr (c : Command) : encode c.instr = .cmdw (encodeCommand c) := by
  cases c <;> rfl

/-- R83: WE, then the word index. -/
theorem busop_we_append_index (op : BitVec 5) : BitVec.ofBool (op.getLsbD 4) ++ op.extractLsb' 0 4 = op := by
  revert op
  decide

@[simp] theorem decode_encodeRead (idx : BitVec 4) : decode (encodeRead idx) = .ok (decodeRead idx) := by
  have we : (0#1 ++ idx).getLsbD 4 = false := by revert idx; decide
  have index : (0#1 ++ idx).extractLsb' 0 4 = idx := by revert idx; decide
  rw [encodeRead, decode, decodeBusop, we, if_neg Bool.false_ne_true, index]

@[simp] theorem decode_encodeWrite (idx : BitVec 4) (v : Word) :
    decode (encodeWrite idx v) = .ok (decodeWrite idx v) := by
  have we : (1#1 ++ idx).getLsbD 4 = true := by revert idx; decide
  have index : (1#1 ++ idx).extractLsb' 0 4 = idx := by revert idx; decide
  rw [encodeWrite, decode, decodeBusop, if_pos we, index]

theorem encode_decodeRead (idx : BitVec 4) : encode (decodeRead idx) = encodeRead idx := by
  revert idx
  decide

theorem encode_decodeWrite (idx : BitVec 4) (v : Word) : encode (decodeWrite idx v) = encodeWrite idx v := by
  obtain ⟨n⟩ := idx
  fin_cases n <;> rfl

theorem decode_encode (i : Instr) : decode (encode i) = .ok i := by
  cases i with
  | nop => exact decode_encodeCommand .nop
  | init => exact decode_encodeCommand .init
  | absorb nb => exact decode_encodeCommand (.absorb nb)
  | final => exact decode_encodeCommand .final
  | rdId | rdCmd | rdStatus | rdDin | rdBitlenLo | rdBitlenHi => exact decode_encodeRead _
  | rdRsvd low => rcases BitVec.eq_zero_or_eq_one low with rfl | rfl <;> exact decode_encodeRead _
  | rdDigest k =>
    have row : decodeRead (1#1 ++ k) = .rdDigest k := by revert k; decide
    rw [encode, decode_encodeRead, row]
  | wrId v | wrCmd v | wrStatus v | wrDin v => exact decode_encodeWrite _ v
  | wrBitlen hi v => rcases BitVec.eq_zero_or_eq_one hi with rfl | rfl <;> exact decode_encodeWrite _ v
  | wrRsvd low v => rcases BitVec.eq_zero_or_eq_one low with rfl | rfl <;> exact decode_encodeWrite _ v
  | wrDigest k v =>
    match k with
    | 0 | 1 | 2 | 3 | 4 | 5 | 6 | 7 => exact decode_encodeWrite _ v

/-- Settles O3: a command by its word, a bus operation by the row of its word index. -/
theorem decodeOfEncodeIsTheInstruction : Obligations.DecodeOfEncodeIsTheInstruction :=
  fun i _ => decode_encode i

theorem encode_decodeBusop {op : BitVec 5} {data : Word} (wf : (Encoded.busop op data).wellFormed = true) :
    encode (decodeBusop op data) = .busop op data := by
  have fields := busop_we_append_index op
  cases we : op.getLsbD 4 with
  | true =>
    rw [we] at fields
    rw [decodeBusop, if_pos we, encode_decodeWrite, encodeWrite]
    exact congrArg (Encoded.busop · data) fields
  | false =>
    have noData : data = 0 := by simpa only [Encoded.wellFormed, we, Bool.false_or, beq_iff_eq] using wf
    rw [we] at fields
    rw [decodeBusop, we, if_neg Bool.false_ne_true, encode_decodeRead, encodeRead, noData]
    exact congrArg (Encoded.busop · 0) fields

/-- Settles O4: a command word is the word of the command it decodes to, and a bus operation without stray data bits
is its WE bit and its word index again. -/
theorem encodeOfDecodedIsTheObject : Obligations.EncodeOfDecodedIsTheObject := by
  intro e i wf decodes
  cases e with
  | cmdw v =>
    rw [decode] at decodes
    split at decodes
    · next c word =>
      cases decodes
      rw [encode_instr, encodeCommand_of_decodeCmdw word]
    · cases decodes
  | busop op data =>
    cases decodes
    exact encode_decodeBusop wf

/-- Settles O5: fixed words, by evaluation. -/
theorem writtenOutWordsDecode : Obligations.WrittenOutWordsDecode := by
  unfold Obligations.WrittenOutWordsDecode
  decide

/-! ### Reserved words (R86): those that are no command's word. -/

/-- The words of the four commands by their fields (R81, R82): NB is the one field that takes more than one value. -/
theorem exists_encodeCommand_iff (v : Word) :
    (∃ c, encodeCommand c = v) ↔
      ((v.extractLsb' 0 4 = 0x0#4 ∨ v.extractLsb' 0 4 = 0x1#4 ∨ v.extractLsb' 0 4 = 0x3#4) ∧
          v.extractLsb' 4 28 = 0#28) ∨
        (v.extractLsb' 0 4 = 0x2#4 ∧ v.extractLsb' 6 26 = 0#26) := by
  constructor
  · rintro ⟨c, rfl⟩
    cases c with
    | nop => decide
    | init => decide
    | absorb nb => revert nb; decide
    | final => decide
  · have halves : v.extractLsb' 4 28 ++ v.extractLsb' 0 4 = v := by
      have whole : v.extractLsb' 4 28 ++ v.extractLsb' 0 4 = v.extractLsb' 0 32 :=
        BitVec.extractLsb'_append_extractLsb'_eq_extractLsb' rfl
      rw [whole, BitVec.extractLsb'_eq_self]
    rintro (⟨op | op | op, upper⟩ | ⟨op, mbz⟩)
    · exact ⟨.nop, by rw [← halves, op, upper]; rfl⟩
    · exact ⟨.init, by rw [← halves, op, upper]; rfl⟩
    · exact ⟨.final, by rw [← halves, op, upper]; rfl⟩
    · exact ⟨.absorb (v.extractLsb' 4 2), by rw [encodeCommand, ← mbz, ← op, cmdwFields_append]⟩

theorem decodeCmdw_eq_none_iff (v : Word) : decodeCmdw v = none ↔ ¬ ∃ c, encodeCommand c = v := by
  rw [Option.eq_none_iff_forall_ne_some, not_exists]
  exact forall_congr' fun c => not_congr (decodeCmdw_eq_some_iff.trans eq_comm)

/-- Settles O1: by the value of OP, of which four are commands' and the others reserved. -/
theorem reservedWordsAreExactlyThese : Obligations.ReservedWordsAreExactlyThese := by
  intro v
  rw [decodeCmdw_eq_none_iff, exists_encodeCommand_iff]
  generalize v.extractLsb' 0 4 = op
  have values : 4 ≤ op.toNat ∨ op = 0x0#4 ∨ op = 0x1#4 ∨ op = 0x2#4 ∨ op = 0x3#4 := by revert op; decide
  rcases values with reserved | rfl | rfl | rfl | rfl
  · have notCommand : op ≠ 0x0#4 ∧ op ≠ 0x1#4 ∧ op ≠ 0x2#4 ∧ op ≠ 0x3#4 := by revert op; decide
    simp [reserved, notCommand]
  all_goals simp

/-! ### The register map (20_memory.md R57). -/

/-- The register at a word index. -/
def registerAt (idx : BitVec 4) : RegName :=
  match idx with
  | 0x0#4 => .id
  | 0x1#4 => .cmd
  | 0x2#4 => .status
  | 0x3#4 => .din
  | 0x4#4 => .bitlenLo
  | 0x5#4 => .bitlenHi
  | 0x6#4 => .rsvd6
  | 0x7#4 => .rsvd7
  | i => .digest (i.extractLsb' 0 3)

@[simp] theorem index_registerAt (idx : BitVec 4) : (registerAt idx).index = idx := by
  revert idx
  decide

@[simp] theorem registerAt_index (r : RegName) : registerAt r.index = r := by
  cases r with
  | digest i => revert i; decide
  | _ => rfl

theorem off_digest (i : BitVec 3) : RegName.off (.digest i) = 0x20 + 4 * i.toNat := by
  revert i
  decide

/-- Settles O6: `registerAt` and `RegName.index` undo each other. -/
theorem registerMapCoversTheWindow : Obligations.RegisterMapCoversTheWindow :=
  ⟨rfl, rfl, rfl, rfl, rfl, rfl, rfl, rfl, off_digest, fun idx =>
    ⟨registerAt idx, index_registerAt idx, fun r index => by rw [← index, registerAt_index]⟩⟩

end Sys2Proof.Machine
end

section
/-! What an instruction leaves unchanged (20_memory.md R54, 41_commands.md, 60_exceptions.md R181): the read rows are
reads of a value that `rdata` does not enter, the other rows writes that keep `rdata`. -/

namespace Sys2Proof.Machine

theorem exec_of_isRead {i : Instr} (read : isRead i = true) :
    ∃ value : State → Word, (∀ s, exec i s = readAccess (value s) s) ∧
      ∀ s w, value { s with rdata := w } = value s := by
  cases i with
  | rdId | rdCmd | rdStatus | rdDin | rdBitlenLo | rdBitlenHi | rdRsvd low | rdDigest k =>
    exact ⟨_, fun _ => rfl, fun _ _ => rfl⟩
  | _ => cases read

/-- Issuing a word writes neither DIN nor `rdata` (R140). -/
theorem issue_din_rdata (v : Word) (s : State) : (issue v s).din = s.din ∧ (issue v s).rdata = s.rdata := by
  rcases issue_cases v s with unchanged | ⟨e, raised⟩ | ⟨op, n, _, latched, _⟩
  · rw [unchanged]; exact ⟨rfl, rfl⟩
  · rw [raised]; exact ⟨rfl, rfl⟩
  · rw [latched]; exact ⟨rfl, rfl⟩

theorem exec_of_not_isRead {i : Instr} (write : isRead i = false) :
    ∃ f : State → State, (∀ s, exec i s = writeAccess f s) ∧ ∀ s, (f s).rdata = s.rdata := by
  cases i with
  | nop | init | absorb nb | final | wrCmd v =>
    exact ⟨issue _, exec_of_cmdWordOf rfl, fun s => (issue_din_rdata _ s).2⟩
  | wrStatus v => exact ⟨clearErrors v, fun _ => rfl, clearErrors_rdata v⟩
  | wrDin v => exact ⟨fun t => { t with din := v }, fun _ => rfl, fun _ => rfl⟩
  | wrId v | wrBitlen hi v | wrRsvd low v | wrDigest k v => exact ⟨fun t => t, fun _ => rfl, fun _ => rfl⟩
  | _ => cases write

theorem exec_total (i : Instr) (s : State) : ∃ t, exec i s = .next t := by
  obtain ⟨t, _, next, _⟩ := sameButErrors_exec i s s.err
  exact ⟨t, next⟩

/-! ### Reset (R211) and reads (R54). -/

/-- While `rst_n` is low a read gives 0 and a write does nothing. -/
theorem exec_of_reset (i : Instr) {s : State} (low : s.rstN = false) :
    exec i s = .next { s with rdata := if isRead i = true then 0x00000000#32 else s.rdata } := by
  cases kind : isRead i with
  | true =>
    obtain ⟨value, reads, _⟩ := exec_of_isRead kind
    rw [reads, readAccess_next, low]
    rfl
  | false =>
    obtain ⟨f, writes, _⟩ := exec_of_not_isRead kind
    rw [writes, writeAccess_of_reset f s low]
    rfl

/-- Settles O36: the value read does not depend on `rdata`, the one element that a read changes. -/
theorem readsHaveNoSideEffect : Obligations.ReadsHaveNoSideEffect := by
  intro i s read
  obtain ⟨value, reads, repeats⟩ := exec_of_isRead read
  exact ⟨_, reads s, by rw [reads, repeats, readAccess_next]⟩

/-- The low three bits of BITLEN are 0 where it counts whole bytes (R24). -/
theorem bitlenLo_low_bits {s : State} (wholeBytes : s.hash.bitlen.toNat % 8 = 0) :
    (bitlenLo s).extractLsb' 0 3 = 0b000#3 := by
  apply BitVec.eq_of_toNat_eq
  simp only [bitlenLo, BitVec.extractLsb'_toNat, Nat.shiftRight_zero, BitVec.toNat_ofNat]
  omega

/-- Settles O30: the halves of `bitlenLo` and `bitlenHi`, and the invariants' clauses on BITLEN. -/
theorem readsOfBitlenGiveItsHalves : Obligations.ReadsOfBitlenGiveItsHalves := by
  refine ⟨fun _ => ⟨rfl, rfl⟩, fun s running => ⟨bitlenLo s, bitlenHi s, readAccess_of_running _ running,
    readAccess_of_running _ running, ?_, fun inv => ⟨bitlenLo_low_bits inv.wholeBytes, fun idle => ?_⟩⟩⟩
  · have whole : bitlenHi s ++ bitlenLo s = s.hash.bitlen.extractLsb' 0 64 :=
      BitVec.extractLsb'_append_extractLsb'_eq_extractLsb' rfl
    rw [whole, BitVec.extractLsb'_eq_self]
  · obtain ⟨_, zero⟩ := inv.idle idle
    rw [bitlenLo, bitlenHi, zero]
    decide

/-! ### The frame of an instruction. -/

/-- No instruction writes the hash state, PHASE, the reset line, the platform's list or the host agent. -/
theorem Effect.frame {s t : State} (effect : Effect s t) :
    t.hash = s.hash ∧ t.phase = s.phase ∧ t.rstN = s.rstN ∧ t.platform = s.platform ∧ t.host = s.host := by
  cases effect <;> exact ⟨rfl, rfl, rfl, rfl, rfl⟩

theorem exec_din {i : Instr} {s t : State} (other : ∀ v, i ≠ .wrDin v) (next : exec i s = .next t) : t.din = s.din := by
  cases i with
  | nop | init | absorb nb | final | wrCmd v =>
    rw [exec_of_cmdWordOf rfl] at next
    obtain rfl | rfl := eq_or_eq_of_writeAccess next
    · rfl
    · exact (issue_din_rdata _ s).1
  | rdId | rdCmd | rdStatus | rdDin | rdBitlenLo | rdBitlenHi | rdRsvd low | rdDigest k => cases next; rfl
  | wrDin v => exact absurd rfl (other v)
  | wrStatus v => obtain rfl | rfl := eq_or_eq_of_writeAccess next <;> rfl
  | wrId v | wrBitlen hi v | wrRsvd low v | wrDigest k v => cases (writeAccess_ignored s).symm.trans next; rfl

/-- An instruction that is no CMD write reaches DIN, the error bits and `rdata` at most, and the error bits only by
the STATUS write. -/
theorem exec_of_not_cmdWrite {i : Instr} {s t : State} (other : cmdWordOf i = none) (next : exec i s = .next t) :
    t = { s with din := t.din, err := t.err, rdata := t.rdata } ∧ ((∀ v, i ≠ .wrStatus v) → t.err = s.err) := by
  cases access_cases i with
  | read value h => rw [h, readAccess_next] at next; cases next; exact ⟨rfl, fun _ => rfl⟩
  | cmdWrite v word => rw [word] at other; cases other
  | statusWrite v h =>
    subst h
    obtain rfl | rfl := eq_or_eq_of_writeAccess next <;> exact ⟨rfl, fun notStatus => absurd rfl (notStatus v)⟩
  | dinWrite v h =>
    rw [h] at next
    obtain rfl | rfl := eq_or_eq_of_writeAccess next <;> exact ⟨rfl, fun _ => rfl⟩
  | ignored h => rw [h] at next; cases next; exact ⟨rfl, fun _ => rfl⟩

theorem exec_rdata {i : Instr} {s t : State} (write : isRead i = false) (next : exec i s = .next t) :
    t.rdata = s.rdata := by
  obtain ⟨f, writes, keeps⟩ := exec_of_not_isRead write
  rw [writes] at next
  obtain rfl | rfl := eq_or_eq_of_writeAccess next
  · rfl
  · exact keeps s

/-- Settles O38: what no instruction writes by `exec_effect`, each other element by the rows that write it. -/
theorem frameOfEveryInstruction : Obligations.FrameOfEveryInstruction := by
  intro i s t next
  obtain ⟨hash, phase, rstN, platform, host⟩ := (exec_effect next).frame
  refine ⟨hash, phase, rstN, platform, host, fun other => exec_din other next, fun other => ?_,
    fun other => (exec_of_not_cmdWrite other next).2, fun write => exec_rdata write next⟩
  rw [(exec_of_not_cmdWrite other next).1]
  exact ⟨rfl, rfl, rfl, rfl⟩

/-! ### Error bits (R160, R181): only a CMD write sets one. -/

theorem errorBit_of_not_cmdWrite {i : Instr} {s t : State} {e : ErrorKind} (other : cmdWordOf i = none)
    (next : exec i s = .next t) (set : errorBit e t.err = true) : errorBit e s.err = true := by
  by_cases status : ∃ v, i = .wrStatus v
  · obtain ⟨v, rfl⟩ := status
    obtain rfl | rfl := eq_or_eq_of_writeAccess next
    · exact set
    · rw [errorBit_clearErrors, Bool.and_eq_true] at set
      exact set.1
  · rwa [← (exec_of_not_cmdWrite other next).2 (not_exists.mp status)]

/-- Settles O37: no row refuses, and `exec_of_not_cmdWrite` leaves the STATUS write, which only clears bits. -/
theorem everyAccessCompletes : Obligations.EveryAccessCompletes := by
  intro i s
  obtain ⟨t, next⟩ := exec_total i s
  exact ⟨t, next, fun other _ => errorBit_of_not_cmdWrite other next⟩

/-- Settles O24: of what `issue` can do, only `raise` of the error itself sets its bit. -/
theorem raisingChangesOnlyTheOneBit : Obligations.RaisingChangesOnlyTheOneBit := by
  intro i s t e next set clear
  cases word : cmdWordOf i with
  | none => rw [errorBit_of_not_cmdWrite word next set] at clear; cases clear
  | some v =>
    refine ⟨⟨v, rfl⟩, ?_⟩
    rw [exec_of_cmdWordOf word] at next
    obtain rfl | rfl := eq_or_eq_of_writeAccess next
    · rw [set] at clear; cases clear
    rcases issue_cases v s with unchanged | ⟨raised, h⟩ | ⟨op, n, _, latched, _⟩
    · rw [unchanged, clear] at set; cases set
    · rw [h, raise_err, errorBit_setError, clear, Bool.or_false, decide_eq_true_eq] at set
      subst set
      rw [h]
      exact ⟨rfl, fun e' ne => by rw [raise_err, errorBit_setError, decide_eq_false ne, Bool.false_or]⟩
    · rw [latched, latch_err, clear] at set; cases set

end Sys2Proof.Machine
end

section
/-! CMD writes and the phases (R88, R147, R149), and the elements that no access shows outside DONE (R40, R42). -/

namespace Sys2Proof.Machine

/-- Settles O16: a mnemonic and the write of its word both issue the word (R88). -/
theorem mnemonicIsTheCmdWriteOfItsWord : Obligations.MnemonicIsTheCmdWriteOfItsWord := by
  intro i v s word
  rw [exec_of_cmdWordOf word, exec_of_cmdWordOf (i := .wrCmd v) rfl]

/-- Settles O18: by the command and the checks of R140 that it passes. -/
theorem phaseTable : Obligations.PhaseTable := by
  intro c s ⟨running, idle⟩
  have nonePending : s.pend = none := pend_none_of_not_busy s idle
  have refused : ∀ e, (complete (raise e s)).phase = s.phase := fun e => by
    rw [complete_of_none (s := raise e s) nonePending, raise_phase]
  refine ⟨issueCommand c s, exec_instr_of_issueCommand running rfl, ?_⟩
  cases c with
  | nop =>
    rw [issueCommand_nop idle, complete_of_none nonePending]
    exact ⟨rfl, rfl, by simp⟩
  | init =>
    rw [issueCommand_init idle]
    exact ⟨rfl, rfl, by simp⟩
  | absorb nb =>
    by_cases active : s.phase = .active
    · by_cases fits : s.hash.bitlen.toNat + 8 * byteCount nb ≤ bitlenMax
      · rw [issueCommand_absorb_of_fits idle active fits]
        exact ⟨rfl, rfl, fun _ inactive => absurd active inactive⟩
      · rw [issueCommand_absorb_of_overlong idle active (not_le.mp fits)]
        exact ⟨rfl, refused .len, fun _ inactive => absurd active inactive⟩
    · rw [issueCommand_absorb_of_not_active nb idle active]
      exact ⟨rfl, refused .seq, fun _ _ => rfl⟩
  | final =>
    by_cases active : s.phase = .active
    · rw [issueCommand_final_of_active idle active]
      exact ⟨rfl, (if_pos active).symm, fun _ inactive => absurd active inactive⟩
    · rw [issueCommand_final_of_not_active idle active]
      exact ⟨rfl, (refused .seq).trans (if_neg active).symm, fun _ _ => rfl⟩

/-- Settles O40: of the commands that R140 accepts, INIT alone does not ask for ACTIVE. -/
theorem digestIsImmutableInDone : Obligations.DigestIsImmutableInDone := by
  intro i s t done nonePending next
  have effect := exec_effect next
  obtain ⟨hash, phase, _⟩ := effect.frame
  refine ⟨phase.trans done, hash, fun p pending => ?_⟩
  cases effect with
  | latched op n _ _ fits =>
    cases pending
    cases op with
    | init => rfl
    | absorb => cases done.symm.trans fits.1
    | final => cases done.symm.trans fits.2
  | _ => cases nonePending.symm.trans pending

/-! ### H and BUF outside DONE (R40, R42): no check of a CMD write and no register but DIGEST looks at them. -/

/-- `s` with other words in H and other bytes in BUF. -/
def withHidden (h : Vector Word 8) (buf : Vector Byte 64) (s : State) : State :=
  { s with hash := { s.hash with h := h, buf := buf } }

theorem issueCommand_withHidden (c : Command) (h : Vector Word 8) (buf : Vector Byte 64) (s : State) :
    issueCommand c (withHidden h buf s) = withHidden h buf (issueCommand c s) := by
  unfold issueCommand
  rw [apply_ite (withHidden h buf)]
  refine ite_congr rfl (fun _ => rfl) fun _ => ?_
  cases c with
  | nop => rfl
  | init => rfl
  | absorb nb =>
    dsimp only
    rw [apply_ite (withHidden h buf), apply_ite (withHidden h buf)]
    rfl
  | final =>
    dsimp only
    rw [apply_ite (withHidden h buf)]
    rfl

theorem issue_withHidden (v : Word) (h : Vector Word 8) (buf : Vector Byte 64) (s : State) :
    issue v (withHidden h buf s) = withHidden h buf (issue v s) := by
  unfold issue
  rw [apply_ite (withHidden h buf)]
  refine ite_congr rfl (fun _ => rfl) fun _ => ?_
  cases decodeCmdw v with
  | none => rfl
  | some c => exact issueCommand_withHidden c h buf s

theorem writeAccess_withHidden {f : State → State} {h : Vector Word 8} {buf : Vector Byte 64} {s : State}
    (commutes : f (withHidden h buf s) = withHidden h buf (f s)) :
    writeAccess f (withHidden h buf s) = onNext (writeAccess f s) (withHidden h buf) := by
  unfold writeAccess
  rw [onNext_next, apply_ite (withHidden h buf), commutes]
  rfl

theorem exec_withHidden (i : Instr) (h : Vector Word 8) (buf : Vector Byte 64) {s : State} (outside : s.phase ≠ .done) :
    exec i (withHidden h buf s) = onNext (exec i s) (withHidden h buf) := by
  cases i with
  | nop | init | absorb nb | final | wrCmd v =>
    rw [exec_of_cmdWordOf rfl, exec_of_cmdWordOf rfl]
    exact writeAccess_withHidden (issue_withHidden _ h buf s)
  | rdId | rdCmd | rdStatus | rdDin | rdBitlenLo | rdBitlenHi | rdRsvd low => rfl
  | rdDigest k =>
    have zero : digestWord k s = 0#32 := if_neg outside
    have zero' : digestWord k (withHidden h buf s) = 0#32 := if_neg outside
    change readAccess (digestWord k (withHidden h buf s)) _ = onNext (readAccess (digestWord k s) s) _
    rw [zero, zero']
    rfl
  | wrStatus v => exact writeAccess_withHidden (f := clearErrors v) rfl
  | wrDin v => exact writeAccess_withHidden (f := fun t => { t with din := v }) rfl
  | wrId v | wrBitlen hi v | wrRsvd low v | wrDigest k v => exact writeAccess_withHidden (f := fun t => t) rfl

/-- Settles O39: every instruction does the same with the hidden words and bytes exchanged. -/
theorem hiddenStateIsNotShownOutsideDone : Obligations.HiddenStateIsNotShownOutsideDone := by
  intro i s h buf outside
  obtain ⟨t, next⟩ := exec_total i s
  refine ⟨t, next, ?_⟩
  change exec i (withHidden h buf s) = .next (withHidden h buf t)
  rw [exec_withHidden i h buf outside, next, onNext_next]

end Sys2Proof.Machine
end

section
/-! The completion and the accesses before it (R27, R148): it looks at the hash state, PHASE and PEND alone, and no
access writes one of these while a command is pending. -/

namespace Sys2Proof.Machine

theorem complete_congr {s t : State} (hash : t.hash = s.hash) (phase : t.phase = s.phase) (pend : t.pend = s.pend) :
    (complete t).hash = (complete s).hash ∧ (complete t).phase = (complete s).phase := by
  unfold complete
  rw [pend]
  cases s.pend with
  | none => exact ⟨hash, phase⟩
  | some p =>
    obtain ⟨op, n, d⟩ := p
    cases op with
    | init => exact ⟨rfl, rfl⟩
    | absorb => exact ⟨congrArg (absorbBytes · (absorbedBytes n d)) hash, phase⟩
    | final => exact ⟨congrArg pad hash, rfl⟩

/-- While a command is pending no instruction writes PEND or its delay. -/
theorem Effect.pend_of_busy {s t : State} (effect : Effect s t) (busy : s.busy = true) :
    t.pend = s.pend ∧ t.delay = s.delay := by
  cases effect with
  | latched op n _ idle _ => cases busy.symm.trans idle
  | _ => exact ⟨rfl, rfl⟩

/-- Settles O54: an access while BUSY keeps all that the completion looks at. -/
theorem resultDoesNotDependOnTheDelay : Obligations.ResultDoesNotDependOnTheDelay := by
  intro i s t busy next
  obtain ⟨hash, phase, _⟩ := (exec_effect next).frame
  obtain ⟨pend, _⟩ := (exec_effect next).pend_of_busy busy
  exact ⟨pend, hash, phase, complete_congr hash phase pend⟩

theorem complete_withDin (s : State) (v : Word) : complete { s with din := v } = { complete s with din := v } := by
  obtain ⟨hash, phase⟩ := complete_congr (s := s) (t := { s with din := v }) rfl rfl rfl
  rw [complete_frame { s with din := v }, complete_frame s, hash, phase]

/-- Settles O35: the pending command carries its own copy of DIN. -/
theorem pendingDataIsTheIssueTimeCopy : Obligations.PendingDataIsTheIssueTimeCopy :=
  fun v s running _ => ⟨{ s with din := v }, writeOfDin.2 v s running, complete_withDin s v⟩

end Sys2Proof.Machine
end

section
/-! The reset values (10_state.md R20) and the reset line (70_reset_and_hazards.md R210, R211). -/

namespace Sys2Proof.Machine

theorem eq_errorsNone {b : Errors} (seq : b.seq = false) (cmd : b.cmd = false) (busy : b.busy = false)
    (len : b.len = false) : b = Errors.none := by
  obtain ⟨_, _, _, _⟩ := b
  cases seq; cases cmd; cases busy; cases len
  rfl

theorem engineAtReset_iff {s : State} : EngineAtReset s ↔
    s.hash = HashState.zero ∧ s.phase = .idle ∧ s.pend = none ∧ s.din = 0#32 ∧ s.err = Errors.none := by
  constructor
  · intro r
    refine ⟨?_, r.phase, r.pend, r.din, ?_⟩
    · have h : s.hash.h = Vector.replicate 8 0#32 := by
        ext i hi : 1
        rw [r.h ⟨i, hi⟩, Vector.getElem_replicate]
      have buf : s.hash.buf = Vector.replicate 64 0#8 := by
        ext j hj : 1
        rw [r.buf ⟨j, hj⟩, Vector.getElem_replicate]
      rw [HashState.zero, ← h, ← buf, ← r.cnt, ← r.bitlen]
    · exact eq_errorsNone r.errSeq r.errCmd r.errBusy r.errLen
  · rintro ⟨hash, phase, pend, din, err⟩
    exact
      { h := fun i => by simp [hash, HashState.zero]
        buf := fun j => by simp [hash, HashState.zero]
        cnt := by rw [hash]; rfl
        bitlen := by rw [hash]; rfl
        phase := phase
        pend := pend
        busy := busy_of_none s pend
        din := din
        errSeq := by rw [err]; rfl
        errCmd := by rw [err]; rfl
        errBusy := by rw [err]; rfl
        errLen := by rw [err]; rfl }

theorem EngineAtReset.congr {s t : State} (atReset : EngineAtReset s) (hash : t.hash = s.hash)
    (phase : t.phase = s.phase) (pend : t.pend = s.pend) (din : t.din = s.din) (err : t.err = s.err) :
    EngineAtReset t := by
  rw [engineAtReset_iff, hash, phase, pend, din, err]
  exact engineAtReset_iff.mp atReset

theorem setResetLine_of_low {s : State} {level : Bool} (low : level = false ∨ s.rstN = false) :
    setResetLine level s = { resetEngine s with rstN := level } := by
  rcases low with rfl | low
  · rfl
  · rw [setResetLine, low, Bool.and_false, if_neg Bool.false_ne_true]

/-- A level of the reset line changes nothing or leaves the reset values (R210). -/
theorem setResetLine_cases (level : Bool) (s : State) :
    setResetLine level s = s ∨ setResetLine level s = { resetEngine s with rstN := level } := by
  rw [setResetLine]
  split
  · exact .inl rfl
  · exact .inr rfl

theorem engineAtReset_resetEngine (s : State) (level : Bool) : EngineAtReset { resetEngine s with rstN := level } :=
  engineAtReset_iff.mpr ⟨rfl, rfl, rfl, rfl, rfl⟩

theorem statusWord_of_engineAtReset {s : State} (r : EngineAtReset s) : statusWord s = 0x00000000#32 := by
  rw [statusWord, r.cnt, r.errLen, r.errBusy, r.errCmd, r.errSeq, r.busy, r.phase]
  decide

theorem engineAtReset_reset : EngineAtReset State.reset :=
  engineAtReset_iff.mpr ⟨rfl, rfl, rfl, rfl, rfl⟩

/-- Settles O7: the fields of `State.reset`, which fix each field of STATUS. -/
theorem resetLeavesTheListedValues : Obligations.ResetLeavesTheListedValues :=
  ⟨engineAtReset_reset, rfl, statusWord_of_engineAtReset engineAtReset_reset⟩

/-- A step in which `rst_n` goes low, or moves at all from low, leaves every element at its reset value. -/
theorem step_of_reset {s : State} {level : Bool} {rest : List PlatformEvent} (next : s.platform = .rst level :: rest)
    (low : level = false ∨ s.rstN = false) :
    ∃ t, step s = .next t ∧ t.rstN = level ∧ EngineAtReset t ∧ t.host = s.host ∧ t.platform = rest := by
  refine ⟨{ resetEngine { s with platform := rest } with rstN := level }, ?_, rfl,
    engineAtReset_resetEngine _ _, rfl, rfl⟩
  rw [step_of_reset_line next, setResetLine_of_low (s := { s with platform := rest }) low]

/-- Settles O9: the step of `rst_n` going low, and what an instruction does while it is low. -/
theorem resetDiscardsTheCommandAndBlocksAccesses : Obligations.ResetDiscardsTheCommandAndBlocksAccesses := by
  refine ⟨fun s p rest _ next => ?_, fun i s => exec_of_reset i⟩
  obtain ⟨t, stepped, _, atReset, _⟩ := step_of_reset next (.inl rfl)
  exact ⟨t, stepped, atReset.pend, atReset⟩

/-! ### What a step can do, the platform's list in view. -/

theorem step_of_nil {s : State} (quiet : s.platform = []) : step s = agentStep s := by
  rw [step, machineStep, quiet]

/-- With the platform quiet for one step, the engine or the host moves. -/
theorem step_of_quiet {s : State} (quiet : s.platform = [] ∨ s.platform.head? = some .pass) :
    step s = agentStep { s with platform := s.platform.tail } := by
  cases events : s.platform with
  | nil =>
    have same : { s with platform := [] } = s := by rw [← events]
    rw [List.tail_nil, same, step_of_nil events]
  | cons event rest =>
    rw [events] at quiet
    obtain rfl : event = .pass := by simpa using quiet
    exact step_of_pass events

/-- The kinds of step, as `step_next` gives them but with the event that a step of the reset line takes: the engine's
completion, an access or a line that makes none, and the reset line's. -/
inductive Move (s : State) : State → Prop where
  | engine (rest : List PlatformEvent) (running : s.rstN = true) (busy : s.busy = true) (due : s.delay = 0) :
      Move s (complete { s with platform := rest })
  | access (rest : List PlatformEvent) (host : HostAgent) {u : State}
      (effect : Effect (elapse { s with platform := rest }) u) : Move s { u with host := host }
  | resetLine (level : Bool) (rest : List PlatformEvent) (next : s.platform = .rst level :: rest) :
      Move s (setResetLine level { s with platform := rest })

theorem move_of_agentStep {s t : State} {rest : List PlatformEvent}
    (next : agentStep { s with platform := rest } = .next t) : Move s t := by
  rcases agentStep_next next with ⟨running, busy, due, rfl⟩ | ⟨u, effect, hostOnly⟩
  · exact .engine rest running busy due
  · rw [hostOnly]
    exact .access rest t.host effect

theorem move_of_step {s t : State} (next : step s = .next t) : Move s t := by
  cases events : s.platform with
  | nil => exact move_of_agentStep (step_of_quiet (.inl events) ▸ next)
  | cons event rest =>
    cases event with
    | pass => exact move_of_agentStep (step_of_pass events ▸ next)
    | rst level =>
      cases (step_of_reset_line events).symm.trans next
      exact .resetLine level rest events
    | access e =>
      obtain ⟨i, runs⟩ := runAccess_eq_exec e (elapse { s with platform := rest })
      rw [step_of_other_master events, runs] at next
      exact .access rest t.host (exec_effect next)

/-- While `rst_n` is low an access reaches `rdata` at most (R211). -/
theorem Effect.engineAtReset {s t : State} (effect : Effect s t) (low : s.rstN = false) (atReset : EngineAtReset s) :
    EngineAtReset t := by
  cases effect with
  | read v => exact atReset.congr rfl rfl rfl rfl rfl
  | unchanged => exact atReset
  | raised e running | latched op n running _ _ | cleared v running | dinWritten v running =>
    cases running.symm.trans low

theorem Move.engineAtReset {s t : State} (move : Move s t) (low : s.rstN = false) (atReset : EngineAtReset s) :
    EngineAtReset t := by
  cases move with
  | engine rest running busy due => cases running.symm.trans low
  | access rest host effect =>
    have atReset' : EngineAtReset (elapse { s with platform := rest }) :=
      atReset.congr rfl rfl rfl rfl rfl
    exact (effect.engineAtReset low atReset').congr rfl rfl rfl rfl rfl
  | resetLine level rest next =>
    rw [setResetLine_of_low (s := { s with platform := rest }) (.inr low)]
    exact engineAtReset_resetEngine _ _

theorem Move.rstN_of_low {s t : State} (move : Move s t) (low : s.rstN = false)
    (held : s.platform.head? ≠ some (.rst true)) : t.rstN = false := by
  cases move with
  | engine rest running busy due => cases running.symm.trans low
  | access rest host effect =>
    obtain ⟨_, _, rstN, _⟩ := effect.frame
    exact rstN.trans low
  | resetLine level rest next =>
    cases level with
    | false => rfl
    | true => rw [next] at held; exact absurd rfl held

/-- Settles O8: the two steps of the reset line, and between them the steps of the others. -/
theorem resetEvent : Obligations.ResetEvent := by
  intro s rest
  refine ⟨fun next => step_of_reset next (.inl rfl), fun low atReset held t next => ?_, fun low next => ?_⟩
  · exact ⟨(move_of_step next).rstN_of_low low held, (move_of_step next).engineAtReset low atReset⟩
  · obtain ⟨t, stepped, high, atReset, host, _⟩ := step_of_reset next (.inr low)
    refine ⟨t, stepped, ⟨high, atReset.busy⟩, atReset, host, ?_⟩
    rw [← statusWord_of_engineAtReset atReset]
    exact readAccess_of_running (statusWord t) high

end Sys2Proof.Machine
end

section
/-! The invariants (10_state.md R30): they hold at the reset values, and a completion, an access and the reset line each
keep them. -/

namespace Sys2Proof.Machine

/-- The invariants speak of the hash state, PHASE, PEND and the reset line; in reset of the reset values too. -/
theorem Inv.congr {s t : State} (inv : Inv s) (hash : t.hash = s.hash) (phase : t.phase = s.phase)
    (pend : t.pend = s.pend) (inReset : t.rstN = false → EngineAtReset t) : Inv t where
  idle := by rw [hash, phase]; exact inv.idle
  active := by rw [hash, phase]; exact inv.active
  done := by rw [hash, phase]; exact inv.done
  wholeBytes := by rw [hash]; exact inv.wholeBytes
  emptyTail := by rw [hash]; exact inv.emptyTail
  pending p h := by
    have fits := inv.pending p (pend ▸ h)
    simpa only [pendingFits, hash, phase] using fits
  inReset := inReset

theorem EngineAtReset.inv {s : State} (atReset : EngineAtReset s) : Inv s where
  idle _ := ⟨atReset.cnt, atReset.bitlen⟩
  active h := by cases atReset.phase.symm.trans h
  done h := by cases atReset.phase.symm.trans h
  wholeBytes := by rw [atReset.bitlen]; rfl
  emptyTail j _ := atReset.buf j
  pending p h := by cases atReset.pend.symm.trans h
  inReset _ := atReset

/-- Settles O57: an engine at its reset values has the invariants. -/
theorem invariantHoldsAtReset : Obligations.InvariantHoldsAtReset := engineAtReset_reset.inv

/-! ### The empty rest of the buffer. -/

/-- BUF holds zeros from CNT on (R30). -/
def EmptyTail (x : HashState) : Prop := ∀ j : Fin 64, x.cnt.toNat ≤ j.val → x.buf[j.val] = 0#8

theorem emptyTail_absorbByte {x : HashState} (tail : EmptyTail x) (b : Byte) : EmptyTail (absorbByte x b) := by
  intro j beyond
  rw [absorbByte_cnt] at beyond
  have cntLt := x.cnt.isLt
  by_cases full : x.cnt.toNat = 63
  · rw [absorbByte_of_full b full]
    exact zeroBlock_get j j.isLt
  · rw [absorbByte_of_room b (by omega)]
    have other : x.cnt.toNat ≠ j.val := by omega
    have kept : (x.buf.set x.cnt.toNat b x.cnt.isLt)[j.val] = x.buf[j.val] :=
      Vector.getElem_set_ne x.cnt.isLt j.isLt other
    rw [kept]
    exact tail j (by omega)

theorem emptyTail_absorbBytes {x : HashState} (tail : EmptyTail x) (bs : List Byte) : EmptyTail (absorbBytes x bs) := by
  induction bs generalizing x with
  | nil => exact tail
  | cons b bs ih => exact ih (emptyTail_absorbByte tail b)

/-! ### The completion of each command. -/

theorem complete_of_init {s : State} {p : Pending} (pend : s.pend = some p) (op : p.op = .init) :
    complete s = { completeInit s with pend := none } := by
  simp [complete, pend, op]

theorem complete_of_absorb {s : State} {p : Pending} (pend : s.pend = some p) (op : p.op = .absorb) :
    complete s = { completeAbsorb p.n p.data s with pend := none } := by
  simp [complete, pend, op]

theorem complete_of_final {s : State} {p : Pending} (pend : s.pend = some p) (op : p.op = .final) :
    complete s = { completeFinal s with pend := none } := by
  simp [complete, pend, op]

/-- What the invariants say of a pending ABSORB: it takes its `n` bytes, and BITLEN has room for them (R10). -/
theorem Inv.absorb_fits {s : State} {p : Pending} (inv : Inv s) (pend : s.pend = some p) (op : p.op = .absorb) :
    s.phase = .active ∧ (absorbedBytes p.n p.data).length = p.n ∧ s.hash.bitlen.toNat + 8 * p.n ≤ bitlenMax := by
  have fits := inv.pending p pend
  rw [op] at fits
  obtain ⟨active, _, le4, room⟩ := fits
  exact ⟨active, absorbedBytes_length _ _ le4, room⟩

/-- BITLEN after an ABSORB, in the integers. -/
theorem Inv.complete_absorb_bitlen {s : State} {p : Pending} (inv : Inv s) (pend : s.pend = some p)
    (op : p.op = .absorb) : (complete s).hash.bitlen.toNat = s.hash.bitlen.toNat + 8 * p.n := by
  obtain ⟨_, taken, room⟩ := inv.absorb_fits pend op
  rw [complete_of_absorb pend op, completeAbsorb_hash, absorbBytes_bitlen_toNat (by rwa [taken]), taken]

/-- Settles O59: the invariants keep the check of R140 true of a pending ABSORB. -/
theorem bitlenNeverWraps : Obligations.BitlenNeverWraps :=
  fun _ _ inv => inv.complete_absorb_bitlen

theorem inv_of_active {s : State} (active : s.phase = .active) (running : s.rstN = true) (nonePending : s.pend = none)
    (count : s.hash.cnt.toNat = s.hash.bitlen.toNat / 8 % 64) (wholeBytes : s.hash.bitlen.toNat % 8 = 0)
    (tail : EmptyTail s.hash) : Inv s where
  idle h := by cases active.symm.trans h
  active _ := count
  done h := by cases active.symm.trans h
  wholeBytes := wholeBytes
  emptyTail := tail
  pending p h := by cases nonePending.symm.trans h
  inReset low := by cases running.symm.trans low

theorem inv_of_done {s : State} (done : s.phase = .done) (running : s.rstN = true) (nonePending : s.pend = none)
    (count : s.hash.cnt = 0#6) (buf : s.hash.buf = zeroBlock) (wholeBytes : s.hash.bitlen.toNat % 8 = 0) : Inv s where
  idle h := by cases done.symm.trans h
  active h := by cases done.symm.trans h
  done _ := ⟨count, buf⟩
  wholeBytes := wholeBytes
  emptyTail j _ := by rw [buf, zeroBlock_get]
  pending p h := by cases nonePending.symm.trans h
  inReset low := by cases running.symm.trans low

theorem Inv.complete {s : State} (inv : Inv s) (running : s.rstN = true) : Inv (complete s) := by
  cases pend : s.pend with
  | none => rwa [complete_of_none pend]
  | some p =>
    cases op : p.op with
    | init =>
      have count : initHash.cnt.toNat = initHash.bitlen.toNat / 8 % 64 := by decide
      rw [complete_of_init pend op]
      exact inv_of_active rfl running rfl count rfl fun j _ => zeroBlock_get j j.isLt
    | absorb =>
      obtain ⟨active, taken, _⟩ := inv.absorb_fits pend op
      have bitlen := inv.complete_absorb_bitlen pend op
      have count := inv.active active
      have wholeBytes := inv.wholeBytes
      rw [complete_of_absorb pend op] at bitlen ⊢
      refine inv_of_active active running rfl ?_ (by omega) (emptyTail_absorbBytes inv.emptyTail _)
      rw [bitlen, completeAbsorb_hash, absorbBytes_cnt, taken]
      omega
    | final =>
      rw [complete_of_final pend op]
      refine inv_of_done rfl running rfl (pad_cnt s.hash) (pad_buf s.hash) ?_
      rw [completeFinal_hash, pad_bitlen]
      exact inv.wholeBytes

/-! ### Accesses and steps. -/

/-- An instruction keeps the invariants: a latched command has passed the checks that they ask of a pending one. -/
theorem Effect.inv {s t : State} (effect : Effect s t) (inv : Inv s) : Inv t := by
  obtain ⟨_, _, rstN, _⟩ := effect.frame
  have atReset : t.rstN = false → EngineAtReset t := fun low =>
    effect.engineAtReset (rstN ▸ low) (inv.inReset (rstN ▸ low))
  cases effect with
  | latched op n running idle fits =>
    exact
      { inv with
        pending := fun p pending => by cases pending; exact fits
        inReset := atReset }
  | _ => exact inv.congr rfl rfl rfl atReset

theorem Move.inv {s t : State} (move : Move s t) (inv : Inv s) : Inv t := by
  have inv' : ∀ rest, Inv { s with platform := rest } := fun rest =>
    inv.congr rfl rfl rfl fun low => (inv.inReset low).congr rfl rfl rfl rfl rfl
  cases move with
  | engine rest running busy due => exact (inv' rest).complete running
  | access rest host effect =>
    have elapsed : Inv (elapse { s with platform := rest }) :=
      inv.congr rfl rfl rfl fun low => (inv.inReset low).congr rfl rfl rfl rfl rfl
    have invU := effect.inv elapsed
    exact invU.congr rfl rfl rfl fun low => (invU.inReset low).congr rfl rfl rfl rfl rfl
  | resetLine level rest next =>
    rcases setResetLine_cases level { s with platform := rest } with kept | reset
    · rw [kept]
      exact inv' rest
    · rw [reset]
      exact (engineAtReset_resetEngine _ _).inv

/-- Settles O58: by the kind of step. -/
theorem everyStepKeepsTheInvariant : Obligations.EveryStepKeepsTheInvariant :=
  fun _ _ inv next => (move_of_step next).inv inv

end Sys2Proof.Machine
end

section
/-! The host's lines (30_encoding.md R88, R90; 20_memory.md R51, R52): with the platform quiet and the engine not due, a
step is the host's line after one step of the pending command's delay. An access is an instruction that always answers,
so a line that makes one answers what it makes of that. -/

namespace Sys2Proof.Machine

/-- A host write line is the bus write. -/
theorem writeTo_exec (idx : BitVec 4) (v : Word) (s : State) : ∃ i t, decode (.busop (1#1 ++ idx) v) = .ok i ∧
    exec i s = .next t ∧ writeTo idx v s = .next (nextLine t) := by
  obtain ⟨t, next⟩ := exec_total (decodeWrite idx v) s
  refine ⟨decodeWrite idx v, t, decode_encodeWrite idx v, next, ?_⟩
  rw [writeTo, runAccess_of_decode (decode_encodeWrite idx v), next, onNext_next]

/-- A host read line is the bus read, whose data the variable takes. -/
theorem readInto_exec (k : VarName) (idx : BitVec 4) (s : State) : ∃ i t, decode (.busop (0#1 ++ idx) 0#32) = .ok i ∧
    exec i s = .next t ∧ readInto k idx s = .next (nextLine (setHostVar k t.rdata t)) := by
  obtain ⟨t, next⟩ := exec_total (decodeRead idx) s
  refine ⟨decodeRead idx, t, decode_encodeRead idx, next, ?_⟩
  rw [readInto, runAccess_of_decode (decode_encodeRead idx), next, onNext_next]

/-- A branch whose label stands in the program goes to it or to the next line. -/
theorem branch_of_lt {target : Nat} {s : State} (inProgram : target < s.host.prog.length) (taken : Prop)
    [Decidable taken] : (if taken then goToLine target s else .next (nextLine s)) =
      .next { s with host := { s.host with pos := if taken then target else s.host.pos + 1 } } := by
  rw [goToLine, if_pos inProgram]
  split_ifs <;> rfl

theorem goToLine_next {target : Nat} {s t : State} (next : goToLine target s = .next t) :
    t = { s with host := { s.host with pos := target } } := by
  unfold goToLine at next
  split at next
  · cases next; rfl
  · cases next

/-- A line that makes no access writes the host agent alone. -/
theorem hostLine_of_isHostLocal {l : HostLine} {s t : State} (isLocal : isHostLocal l = true)
    (next : hostLine l s = .next t) : t = { s with host := t.host } := by
  cases l with
  | li k imm | addi k j imm | andi k j imm | halt => cases next; rfl
  | bne k imm target | beq k imm target =>
    rw [hostLine] at next
    split at next
    · rw [goToLine_next next]
    · cases next; rfl
  | _ => cases isLocal

/-- Settles O51: each line by what `hostLine` makes of it. -/
theorem hostLinesAreBusOperations : Obligations.HostLinesAreBusOperations := by
  intro s r quiet notDue
  refine ⟨fun imm line => ?_, fun k line => ?_, fun k line => ?_, fun l t line isLocal next => ?_⟩
  · rw [step_of_line quiet notDue line]
    exact writeTo_exec r.index imm (elapse s)
  · rw [step_of_line quiet notDue line]
    exact writeTo_exec r.index s.host.vars[k.val] (elapse s)
  · rw [step_of_line quiet notDue line]
    exact readInto_exec k r.index (elapse s)
  · rw [step_of_line quiet notDue line] at next
    exact hostLine_of_isHostLocal isLocal next

/-- Settles O52: a branch goes to its label or to the next line by its test. -/
theorem hostLocalLines : Obligations.HostLocalLines := by
  intro s k j imm target quiet notDue
  refine ⟨fun line => ?_, fun line => ?_, fun line => ?_, fun line inProgram => ?_, fun line inProgram => ?_,
    fun line => ?_⟩
  · rw [step_of_line quiet notDue line]; rfl
  · rw [step_of_line quiet notDue line]; rfl
  · rw [step_of_line quiet notDue line]; rfl
  · rw [step_of_line quiet notDue line, hostLine, branch_of_lt (s := elapse s) inProgram, ite_not]; rfl
  · rw [step_of_line quiet notDue line, hostLine, branch_of_lt (s := elapse s) inProgram]; rfl
  · rw [step_of_line quiet notDue line]; rfl

/-- Settles O60: `rawIndex` refuses an access or gives its word index, before anything else is done. -/
theorem rawAccessesAreWordAccessesOrRefused : Obligations.RawAccessesAreWordAccessesOrRefused := by
  intro s k addr size v quiet notDue idx
  refine ⟨fun line => ?_, fun line => ?_⟩ <;> rw [step_of_line quiet notDue line, hostLine] <;>
    refine ⟨fun outside => ?_, fun inside notWord => ?_, fun inside ⟨word, aligned⟩ => ?_⟩
  · rw [rawIndex_of_outside outside]
  · rw [rawIndex_of_notWord inside notWord]
  · rw [word, rawIndex_of_word inside aligned]
    exact readInto_exec k idx (elapse s)
  · rw [rawIndex_of_outside outside]
  · rw [rawIndex_of_notWord inside notWord]
  · rw [word, rawIndex_of_word inside aligned]
    exact writeTo_exec idx v (elapse s)

end Sys2Proof.Machine
end

section
/-! Steps of the engine and of the host (R60, R148, R221): which comes first, and that a pending command completes. -/

namespace Sys2Proof.Machine

theorem engineReady_iff {s : State} : engineReady s = true ↔ s.rstN = true ∧ s.busy = true ∧ s.delay = 0 := by
  simp [engineReady, and_assoc]

theorem engineReady_of_delay {s : State} (left : s.delay ≠ 0) : engineReady s = false := by
  simp [engineReady, left]

theorem agentStep_of_not_due {s : State} (notDue : engineReady s = false) : agentStep s = hostStep (elapse s) := by
  rw [agentStep, notDue, if_neg Bool.false_ne_true]

theorem hostStep_of_line {s : State} {l : HostLine} (line : s.host.prog[s.host.pos]? = some l) :
    hostStep s = hostLine l s := by
  rw [hostStep, currentLine, line]

/-- Settles O50: the host's `send` and another master's access both run what the object decodes to. -/
theorem stepRunsTheDecodedInstruction : Obligations.StepRunsTheDecodedInstruction := by
  refine fun s e i decodes _ => ⟨fun quiet notDue line => ?_, fun access => ?_⟩
  · have notDue' : engineReady { s with platform := s.platform.tail } = false := notDue
    have line' : (elapse { s with platform := s.platform.tail }).host.prog[s.host.pos]? = some (.send e) := line
    rw [step_of_quiet quiet, agentStep_of_not_due notDue', hostStep_of_line line', hostLine,
      runAccess_of_decode decodes]
    rfl
  · obtain ⟨rest, events⟩ : ∃ rest, s.platform = .access e :: rest := List.head?_eq_some_iff.mp access
    rw [step_of_other_master events, runAccess_of_decode decodes, events]
    rfl

/-- Settles O53: the completion by `step_of_due`; any other step is an access, which writes neither the hash state nor
PHASE nor a pending command. -/
theorem engineStepIsTheCompletion : Obligations.EngineStepIsTheCompletion := by
  refine fun s quiet => ⟨fun due => ?_, fun notDue t next => ?_⟩
  · refine ⟨complete s, step_of_due quiet (engineReady_iff.mpr due), rfl, busy_of_none _ (complete_pend s), ?_⟩
    exact complete_frame s
  · rw [step_of_nil quiet] at next
    rcases agentStep_next next with ⟨running, busy, due, _⟩ | ⟨u, effect, hostOnly⟩
    · exact absurd ⟨running, busy, due⟩ notDue
    · obtain ⟨hash, phase, _⟩ := effect.frame
      rw [hostOnly]
      exact ⟨hash, phase, fun busy => (effect.pend_of_busy busy).1⟩

/-- Settles O55: the delay decides which of the two comes first. -/
theorem bothOrdersAreAdmitted : Obligations.BothOrdersAreAdmitted := by
  intro s p v d quiet running pending line
  have busy : s.busy = true := busy_of_some s p pending
  refine ⟨step_of_due quiet (engineReady_iff.mpr ⟨running, busy, rfl⟩), ?_⟩
  have notDue : engineReady { s with delay := d + 1 } = false := engineReady_of_delay (Nat.succ_ne_zero d)
  have refused : exec (.wrCmd v) { s with delay := d } = .next (raise .busy { s with delay := d }) := by
    rw [exec_wrCmd v (s := { s with delay := d }) running, issue_of_busy (s := { s with delay := d }) v busy]
  refine ⟨nextLine (raise .busy { s with delay := d }), ?_, pending, rfl, rfl, rfl, rfl⟩
  rw [step_of_line (s := { s with delay := d + 1 }) quiet notDue line]
  exact congrArg (onNext · nextLine) refused

/-! ### A pending command completes (R221): a well-formed host program never stops, and each of its steps takes one from
the delay and leaves the command as it is. -/

theorem onNext_runAccess_total (e : Encoded) (s : State) {f : State → State}
    (keeps : ∀ u, (f u).host.prog = u.host.prog) :
    ∃ t, onNext (runAccess e s) f = .next t ∧ t.host.prog = s.host.prog := by
  obtain ⟨i, runs⟩ := runAccess_eq_exec e s
  obtain ⟨u, next⟩ := exec_total i s
  obtain ⟨_, _, _, _, host⟩ := (exec_effect next).frame
  exact ⟨f u, by rw [runs, next, onNext_next], by rw [keeps, host]⟩

theorem rawIndex_of_wellFormed {addr : Nat} {size : AccessSize} (wf : rawAccessWellFormed addr size = true) :
    rawIndex addr size = .ok (BitVec.ofNat 4 ((addr - Config.base) / 4)) := by
  simp only [rawAccessWellFormed, Config.windowBytes, Bool.and_eq_true, beq_iff_eq] at wf
  obtain ⟨⟨rfl, aligned⟩, inside⟩ := wf
  exact rawIndex_of_word (of_decide_eq_true inside) aligned

theorem hostLine_of_wellFormed {l : HostLine} {s : State} (wf : l.wellFormed s.host.prog.length = true) :
    ∃ t, hostLine l s = .next t ∧ t.host.prog = s.host.prog := by
  cases l with
  | wr r imm | wrv r k | send e => exact onNext_runAccess_total _ s fun _ => rfl
  | rd k r => exact onNext_runAccess_total _ s fun _ => rfl
  | li k imm | addi k j imm | andi k j imm | halt => exact ⟨_, rfl, rfl⟩
  | bne k imm target | beq k imm target =>
    have inProgram : target < s.host.prog.length := by simpa [HostLine.wellFormed] using wf
    exact ⟨_, branch_of_lt inProgram _, rfl⟩
  | load k addr size | store addr size v =>
    rw [hostLine, rawIndex_of_wellFormed wf]
    exact onNext_runAccess_total _ s fun _ => rfl

theorem hostStep_of_wellFormed {s : State} (wf : programWellFormed s.host.prog = true) :
    ∃ t, hostStep s = .next t ∧ t.host.prog = s.host.prog := by
  rw [hostStep]
  cases line : currentLine s with
  | none => exact ⟨s, rfl, rfl⟩
  | some l => exact hostLine_of_wellFormed (List.all_eq_true.mp wf l (List.mem_of_getElem? line))

/-- The premises of R221: a command is pending, no reset and no other master intervenes, and the host's program is well
formed. -/
structure Waiting (s : State) : Prop where
  running : s.rstN = true
  busy : s.busy = true
  quiet : s.platform = []
  wellFormed : programWellFormed s.host.prog = true

/-- A step before the command is due leaves it waiting, with one less of its delay. -/
theorem Waiting.step {s : State} (waiting : Waiting s) (left : s.delay ≠ 0) :
    ∃ t, Machine.step s = .next t ∧ Waiting t ∧ t.delay = s.delay - 1 ∧ t.hash = s.hash ∧ t.phase = s.phase ∧
      t.pend = s.pend := by
  obtain ⟨running, busy, quiet, wf⟩ := waiting
  have notDue : engineReady s = false := engineReady_of_delay left
  obtain ⟨t, next, prog⟩ := hostStep_of_wellFormed (s := elapse s) wf
  obtain ⟨u, effect, hostOnly⟩ := hostStep_next next
  obtain ⟨hash, phase, rstN, platform, _⟩ := effect.frame
  obtain ⟨pend, delay⟩ := effect.pend_of_busy busy
  have stepped : Machine.step s = .next t := by
    rw [step_of_nil quiet, agentStep_of_not_due notDue, next]
  rw [elapse_host] at prog
  rw [hostOnly] at stepped
  refine ⟨_, stepped, ⟨rstN.trans running, ?_, platform.trans quiet, ?_⟩, delay, hash, phase, pend⟩
  · rw [State.busy, pend]
    exact busy
  · rwa [← prog] at wf

theorem Waiting.completes {s : State} (waiting : Waiting s) :
    ∃ t, Host.Core.run Sys2Proof.core (s.delay + 1) s = .next t ∧ t.busy = false ∧ t.hash = (complete s).hash ∧
      t.phase = (complete s).phase := by
  induction left : s.delay generalizing s with
  | zero =>
    have stepped : Machine.step s = .next (complete s) :=
      step_of_due waiting.quiet (engineReady_iff.mpr ⟨waiting.running, waiting.busy, left⟩)
    exact ⟨complete s, core_run_succ stepped, busy_of_none _ (complete_pend s), rfl, rfl⟩
  | succ d ih =>
    obtain ⟨t, stepped, waiting', delay, hash, phase, pend⟩ := waiting.step (by omega)
    obtain ⟨u, ran, idle, hashU, phaseU⟩ := ih waiting' (by omega)
    obtain ⟨hash', phase'⟩ := complete_congr hash phase pend
    exact ⟨u, by rw [core_run_succ stepped, ran], idle, hashU.trans hash', phaseU.trans phase'⟩

/-- Settles O56, by induction on the delay that is left. -/
theorem everyPendingCommandCompletes : Obligations.EveryPendingCommandCompletes :=
  fun _ running busy quiet wf => Waiting.completes ⟨running, busy, quiet, wf⟩

end Sys2Proof.Machine
end
